-- ==== Sys2Proof/Word.lean ====
section
/-! DEFINITION. The bit-vector types of the MD5 Engine (spec/00_scope.md R6, R7). -/

namespace Sys2Proof

/-- One byte of a message or of the block buffer. -/
abbrev Byte := BitVec 8

/-- One 32-bit word of the accumulator, of a message block or of a round table (R6). -/
abbrev Word := BitVec 32

/-- One 16-bit command word (R70). -/
abbrev CmdWord := BitVec 16

end Sys2Proof
end

