-- ==== Sys2Proof/Syntax.lean ====
section
/-! DEFINITION. The command set: one constructor per row of spec/opcode_table.json (R73). -/

namespace Sys2Proof

/-- A legal command. The only operand is the message byte of UPDATE (R72). -/
inductive Instr where
  /-- INIT, 0x1000: open a fresh hash operation (R180). -/
  | init
  /-- UPDATE, 0x2000 to 0x20FF: append one message byte (R140). -/
  | update (data : Byte)
  /-- FINAL, 0x3000: pad, compress and publish the digest (R160). -/
  | final
  /-- ABORT, 0x4000: abandon the hash operation (R181). -/
  | abort
  deriving DecidableEq, Repr

end Sys2Proof
end

