-- ==== Sys2Proof/WellFormed.lean ====
section
/-! DEFINITION. Well-formedness. The one operand of a command is eight bits wide by its type, so every term of `Instr`
stands for a legal word; the checks with something to refuse are the ranges of the assembler's numbers (R77). -/

namespace Sys2Proof

/-- R72: DATA is an unsigned byte taken unchanged, and no other command has an operand. -/
def Instr.wf : Instr → Bool
  | .init => true
  | .update data => decide (data.toNat < 256)
  | .final => true
  | .abort => true

/-- R77: the byte of `UPDATE <byte>` is 0..255. -/
def byteInRange (n : Nat) : Bool := decide (n < 256)

/-- R77: the word of `.WORD <w>` is 0..0xFFFF. -/
def wordInRange (n : Nat) : Bool := decide (n < 65536)

/-- R77: a character stands for its ASCII byte. -/
def asciiInRange (c : Char) : Bool := decide (c.toNat < 128)

end Sys2Proof
end

