-- ==== Sys2Proof/Decode.lean ====
section
/-! DEFINITION. Decoding of command words (R70 to R76), total on all 65,536 of them and rejecting by name, and the
encoder written from the same table (R73). -/

namespace Sys2Proof

/-- The fault codes of R221, by name; their four-bit values are `FaultCode.bits`. -/
inductive FaultCode where
  /-- 1: OP is reserved (R222). -/
  | illegalOpcode
  /-- 2: OP is assigned, but RSV ≠ 0, or DATA ≠ 0 outside UPDATE (R223). -/
  | reservedField
  /-- 3: UPDATE or FINAL in IDLE or DONE (R224). -/
  | badState
  /-- 4: an internal invariant violated; no rule raises it (R225). -/
  | invariant
  deriving DecidableEq, Repr

/-- R221, column FCODE. -/
def FaultCode.bits : FaultCode → BitVec 4
  | .illegalOpcode => 1
  | .reservedField => 2
  | .badState => 3
  | .invariant => 4

/-- What R76 answers for a word: a command, or Illegal(code). -/
inductive Decoded where
  | legal (i : Instr)
  | illegal (code : FaultCode)
  deriving DecidableEq, Repr

/-- OP = cmd[15:12] (R70). -/
def opField (w : CmdWord) : BitVec 4 := w.extractLsb' 12 4

/-- RSV = cmd[11:8] (R70). -/
def rsvField (w : CmdWord) : BitVec 4 := w.extractLsb' 8 4

/-- DATA = cmd[7:0] (R70, R72). -/
def dataField (w : CmdWord) : Byte := w.extractLsb' 0 8

/-- R74: the assigned opcodes are 0x1 to 0x4; 0x0 and 0x5 to 0xF are reserved. -/
def assignedOp (op : BitVec 4) : Bool := op == 0x1 || op == 0x2 || op == 0x3 || op == 0x4

/-- R76, line by line. -/
def decode (w : CmdWord) : Decoded :=
  if ¬ assignedOp (opField w) then .illegal .illegalOpcode
  else if rsvField w ≠ 0 then .illegal .reservedField
  else if opField w = 0x2 then .legal (.update (dataField w))
  else if dataField w ≠ 0 then .illegal .reservedField
  else if opField w = 0x1 then .legal .init
  else if opField w = 0x3 then .legal .final
  else .legal .abort

/-- R70: the word with these OP and DATA fields, RSV = 0000. -/
def commandWord (op : BitVec 4) (data : Byte) : CmdWord := (op ++ (0 : BitVec 4)) ++ data

/-- The word of a command (R73). -/
def encode : Instr → CmdWord
  | .init => commandWord 0x1 0
  | .update data => commandWord 0x2 data
  | .final => commandWord 0x3 0
  | .abort => commandWord 0x4 0

/-- The `match / mask` column of R73, in the table's order. -/
structure OpcodeRow where
  matchBits : CmdWord
  maskBits : CmdWord
  deriving DecidableEq, Repr

/-- The row of a command in R73's table. -/
def opcodeRow : Instr → OpcodeRow
  | .init => ⟨0x1000, 0xFFFF⟩
  | .update _ => ⟨0x2000, 0xFF00⟩
  | .final => ⟨0x3000, 0xFFFF⟩
  | .abort => ⟨0x4000, 0xFFFF⟩

/-- R73: a word fits a row when its bits under the mask are the row's. -/
def OpcodeRow.fits (r : OpcodeRow) (w : CmdWord) : Bool := w &&& r.maskBits == r.matchBits

/-- The whole table of R73. -/
def opcodeTable : List OpcodeRow :=
  [⟨0x1000, 0xFFFF⟩, ⟨0x2000, 0xFF00⟩, ⟨0x3000, 0xFFFF⟩, ⟨0x4000, 0xFFFF⟩]

/-- The 16-bit word that the host's numbering of an opcode-table row stands for: bits above `nbits` are zero. Every
command is exactly one word (R71), so only the first word is laid out. -/
def tableWord (nbits w : Nat) : CmdWord := BitVec.ofNat 16 (w % 2 ^ nbits)

/-- The instruction the decoder reads from a row's word, `none` where it refuses. -/
def decodeTableWord (nbits w : Nat) : Option Instr :=
  match decode (tableWord nbits w) with
  | .legal i => some i
  | .illegal _ => none

end Sys2Proof
end

