-- ==== Sys2Proof/Config.lean ====
section
/-! DEFINITION. What the spec leaves to an implementation: the latencies (parameters that a state carries) and the
free values of the ports, which are opaque constants. -/

namespace Sys2Proof

/-- The open latency parameters, in clock cycles with `cmd_ready` = 0 after the word is accepted (R6, R256):
"each ≥ 0 cycles", "no rule depends on them". A faulting word and a word ignored in FAULT have "a latency of their
own" (one parameter each, entry 12). DESIGN CHOICE: carried by the state as plain data, never written by a step (entry 3). -/
structure Latencies where
  /-- T_INIT -/
  tInit : Nat
  /-- T_UPDATE: an UPDATE that does not fill the block. -/
  tUpdate : Nat
  /-- T_BLOCK: an UPDATE that fills the block and compresses. -/
  tBlock : Nat
  /-- T_FINAL: one or two compressions. -/
  tFinal : Nat
  /-- T_ABORT -/
  tAbort : Nat
  /-- A word that raises a fault. -/
  tFault : Nat
  /-- A word ignored in FAULT. -/
  tIgnored : Nat
  deriving DecidableEq, Repr

/-- The STATUS fields that are unsettled while BUSY = 1 (R257). -/
inductive StatusField where
  | st
  | nbuf
  | fcode
  | fcmd
  deriving DecidableEq, Repr

/-- The engine's three outputs (R34). -/
structure Ports where
  cmdReady : Bool
  status : BitVec 32
  digest : BitVec 128
  deriving DecidableEq, Repr, Inhabited

/-- FREE VALUE (R257: "Which one is unspecified, and a model takes it as a draw"): in draw `n`, does STATUS show this
field's value after the command in progress (true) or before it (false)? No body: nothing can evaluate it (entry 4). -/
opaque Config.showsNew : Nat → StatusField → Bool

/-- FREE VALUE (R252: "The state before the first reset is unspecified"): what the ports show in cycle `n` before the
first reset (entry 6). -/
opaque Config.portsBeforeReset : Nat → Ports

end Sys2Proof
end

