-- ==== Sys2Proof/Machine/Memory.lean ====
section
/-! DEFINITION. The block buffer BUF, the engine's one address space (R24, R50): 64 bytes, byte-addressed by 0..63,
held as a list of cells in one canonical form (entry 7). -/

namespace Sys2Proof.Machine

/-- BUF as a list of (index, byte) cells. An index that is not listed reads as the reset contents, 0x00 (R38). -/
abbrev Memory := List Host.Cell

/-- The reset contents of a byte of BUF (R38: "all 64 bytes 0x00"). -/
def resetByte : Byte := 0x00

/-- R50: the address space is 0..63. -/
abbrev bufSize : Nat := 64

/-- The canonical form from index `lo` on: indices strictly rising, inside the address space, and no cell that an
unlisted index would read as. -/
def Memory.wfFrom : Nat → Memory → Bool
  | _, [] => true
  | lo, (k, v) :: m => decide (lo ≤ k) && decide (k < bufSize) && decide (v ≠ resetByte) && Memory.wfFrom (k + 1) m

/-- The canonical form: equal buffers are equal lists. -/
def Memory.wf (m : Memory) : Bool := Memory.wfFrom 0 m

/-- buf[k]. -/
def readByte : Memory → Nat → Byte
  | [], _ => resetByte
  | (a, u) :: m, k => if k = a then u else readByte m k

/-- buf[k] <- v, keeping the canonical form: writing the reset byte removes the cell. -/
def writeByte : Memory → Nat → Byte → Memory
  | [], k, v => if v = resetByte then [] else [(k, v)]
  | (a, u) :: m, k, v =>
    if k < a then (if v = resetByte then (a, u) :: m else (k, v) :: (a, u) :: m)
    else if k = a then (if v = resetByte then m else (k, v) :: m)
    else (a, u) :: writeByte m k v

/-- The number whose little-endian bytes are listed, least significant first (R9). -/
def littleEndian : List Byte → Nat
  | [] => 0
  | b :: bs => b.toNat + 256 * littleEndian bs

/-- buf[k..k+n) as a list. -/
def readBytes (m : Memory) (k n : Nat) : List Byte := (List.range n).map (fun t => readByte m (k + t))

/-- R9: MemRead(k, n), the n bytes at k assembled little-endian. A call with k + n > 64 "is outside every rule and never
occurs"; here it cannot be written down. -/
def memRead (m : Memory) (k n : Nat) (_h : k + n ≤ bufSize) : BitVec (8 * n) :=
  BitVec.ofNat (8 * n) (littleEndian (readBytes m k n))

/-- Writes the listed bytes at k, k+1, ... -/
def writeBytes : Memory → Nat → List Byte → Memory
  | m, _, [] => m
  | m, k, b :: bs => writeBytes (writeByte m k b) (k + 1) bs

/-- R9: v[8t+7:8t] for t in [0, n). -/
def bytesOf (n : Nat) (v : BitVec (8 * n)) : List Byte := (List.range n).map (fun t => v.extractLsb' (8 * t) 8)

/-- R9: MemWrite(k, n, v), buf[k+t] <- v[8t+7:8t] for t in [0, n). -/
def memWrite (m : Memory) (k n : Nat) (v : BitVec (8 * n)) (_h : k + n ≤ bufSize) : Memory :=
  writeBytes m k (bytesOf n v)

/-- `for k in lo .. hi-1: MemWrite(k, 1, 0x00)` (R160); empty when lo ≥ hi. No bound is found by subtraction, so none
can wrap (R164). -/
def zeroRange (m : Memory) (lo : Nat) : (hi : Nat) → hi ≤ bufSize → Memory
  | 0, _ => m
  | hi + 1, h =>
    let m' := zeroRange m lo hi (Nat.le_of_succ_le h)
    if lo ≤ hi then memWrite m' hi 1 (0 : BitVec 8) h else m'

end Sys2Proof.Machine
end

