-- ==== Sys2Proof/Machine/Tables.lean ====
section
/-! DEFINITION. The constants of the Compression Function (R22, R35, R108, R109, R110). No command or reset changes
them and no port shows them. -/

namespace Sys2Proof.Machine

/-- Four words: the accumulator ACC = (A, B, C, D) (R21), or the working registers (a, b, c, d) of a compression (R36). -/
structure Acc where
  a : Word
  b : Word
  c : Word
  d : Word
  deriving DecidableEq, Repr

/-- R22: the initial accumulator value IV. -/
def iv : Acc := ⟨0x67452301, 0xEFCDAB89, 0x98BADCFE, 0x10325476⟩

/-- K[0..15] (R108). -/
def kStage0 : List Word :=
  [0xd76aa478, 0xe8c7b756, 0x242070db, 0xc1bdceee,
   0xf57c0faf, 0x4787c62a, 0xa8304613, 0xfd469501,
   0x698098d8, 0x8b44f7af, 0xffff5bb1, 0x895cd7be,
   0x6b901122, 0xfd987193, 0xa679438e, 0x49b40821]

/-- K[16..31] (R108). -/
def kStage1 : List Word :=
  [0xf61e2562, 0xc040b340, 0x265e5a51, 0xe9b6c7aa,
   0xd62f105d, 0x02441453, 0xd8a1e681, 0xe7d3fbc8,
   0x21e1cde6, 0xc33707d6, 0xf4d50d87, 0x455a14ed,
   0xa9e3e905, 0xfcefa3f8, 0x676f02d9, 0x8d2a4c8a]

/-- K[32..47] (R108). -/
def kStage2 : List Word :=
  [0xfffa3942, 0x8771f681, 0x6d9d6122, 0xfde5380c,
   0xa4beea44, 0x4bdecfa9, 0xf6bb4b60, 0xbebfbc70,
   0x289b7ec6, 0xeaa127fa, 0xd4ef3085, 0x04881d05,
   0xd9d4d039, 0xe6db99e5, 0x1fa27cf8, 0xc4ac5665]

/-- K[48..63] (R108). -/
def kStage3 : List Word :=
  [0xf4292244, 0x432aff97, 0xab9423a7, 0xfc93a039,
   0x655b59c3, 0x8f0ccc92, 0xffeff47d, 0x85845dd1,
   0x6fa87e4f, 0xfe2ce6e0, 0xa3014314, 0x4e0811a1,
   0xf7537e82, 0xbd3af235, 0x2ad7d2bb, 0xeb86d391]

/-- R108: the table K[0..63]. -/
def kTable : List Word := kStage0 ++ kStage1 ++ kStage2 ++ kStage3

theorem kTable_length : kTable.length = 64 := rfl

/-- K[i] (R108). -/
def roundK (i : Fin 64) : Word := kTable[i.val]'(by rw [kTable_length]; exact i.isLt)

/-- R102: stage(i) = i div 16. -/
def stageOf (i : Fin 64) : Fin 4 := ⟨i.val / 16, by omega⟩

/-- RS[s][0..3] (R109). Values: RFC 1321, taken by the spec from general knowledge (93 GK1; entry 11). -/
def rotAmounts : Fin 4 → Fin 4 → Nat
  | 0 => fun r => match r with | 0 => 7 | 1 => 12 | 2 => 17 | 3 => 22
  | 1 => fun r => match r with | 0 => 5 | 1 => 9 | 2 => 14 | 3 => 20
  | 2 => fun r => match r with | 0 => 4 | 1 => 11 | 2 => 16 | 3 => 23
  | 3 => fun r => match r with | 0 => 6 | 1 => 10 | 2 => 15 | 3 => 21

/-- R109: R[i] = RS[stage(i)][i mod 4]. -/
def roundR (i : Fin 64) : Nat := rotAmounts (stageOf i) ⟨i.val % 4, by omega⟩

/-- R110: G[i] by stage, with r = i mod 16. Values: RFC 1321, taken by the spec from general knowledge (93 GK2;
entry 11). -/
def roundG (i : Fin 64) : Fin 16 :=
  match stageOf i with
  | 0 => ⟨i.val % 16, by omega⟩
  | 1 => ⟨(5 * (i.val % 16) + 1) % 16, by omega⟩
  | 2 => ⟨(3 * (i.val % 16) + 5) % 16, by omega⟩
  | 3 => ⟨(7 * (i.val % 16)) % 16, by omega⟩

end Sys2Proof.Machine
end

