-- ==== Sys2Proof/Machine/State.lean ====
section
/-! DEFINITION. The state of the machine: the architectural tuple of R20, the handshake phase of 70_reset_and_hazards.md,
and the moves the host still has to make. All of it is plain data. -/

namespace Sys2Proof.Machine

/-- R27: ST, the lifecycle state; its two-bit encoding is `Lifecycle.bits`. -/
inductive Lifecycle where
  /-- No hash operation; the state after reset and after ABORT. -/
  | idle
  /-- A hash operation is open and takes message bytes. -/
  | absorb
  /-- The digest is final and valid. -/
  | done
  /-- A fault is recorded; the operation is lost. -/
  | fault
  deriving DecidableEq, Repr

/-- R20: the architectural state tuple (ACC, BUF, NBUF, LEN, ST, FCODE, FCMD). -/
structure Engine where
  /-- ACC, 4 x 32 bits (R21). -/
  acc : Acc
  /-- BUF, 64 x 8 bits (R24). -/
  buf : Memory
  /-- NBUF, the occupied length of BUF (R25). -/
  nbuf : BitVec 6
  /-- LEN, the bytes consumed in compressed blocks (R26). -/
  len : BitVec 64
  /-- ST (R27). -/
  st : Lifecycle
  /-- FCODE, 0 if no fault is recorded (R28). -/
  fcode : BitVec 4
  /-- FCMD, 0 if no fault is recorded (R28). -/
  fcmd : CmdWord
  deriving DecidableEq, Repr

/-- The part of the tuple that STATUS shows field by field (R33). -/
structure Shown where
  st : Lifecycle
  nbuf : BitVec 6
  fcode : BitVec 4
  fcmd : CmdWord
  deriving DecidableEq, Repr

/-- The handshake phase. -/
inductive Phase where
  /-- Powered on and not yet reset (R252). -/
  | unreset
  /-- No command in progress: `cmd_ready` = 1 in a cycle with rst = 0 (R254), the first cycle after rst falls among them
  (R38). -/
  | ready
  /-- `cmd_ready` = 0 in this cycle and in `more` cycles after it (R256); `before` is what STATUS showed before the
  command in progress (R257). The tuple holds the command's whole effect already (entry 2). -/
  | busy (more : Nat) (before : Shown)
  deriving DecidableEq, Repr

/-- What the host may do at the coming edges (R260). Polls and digest reads send nothing and change nothing (R57), so
they are the views of Machine/Flags.lean and no moves. -/
inductive HostMove where
  /-- rst = 1 at one rising edge (R250). -/
  | reset
  /-- rst = 0, cmd_valid = 0 for one cycle (R254). -/
  | idle
  /-- rst = 0, cmd_valid = 1, cmd = w, held unchanged until the word is accepted: R255 leaves the host no other move
  (entry 9). -/
  | command (w : CmdWord)
  deriving DecidableEq, Repr

/-- The whole machine. -/
structure State where
  /-- The tuple of R20. -/
  engine : Engine
  /-- The handshake phase. -/
  phase : Phase
  /-- The host's moves to come, the next one first; when none is left the host idles (entry 1). -/
  host : List HostMove
  /-- The open latency parameters (R6); the model's own field, written by no step (entry 3). -/
  lat : Latencies
  /-- The counter that the free values of the ports are applied to; the model's own field (entry 4). -/
  draws : Nat
  deriving DecidableEq, Repr

/-- Why the machine stops. -/
inductive Fault where
  /-- Raised by the step when a command is presented before the first reset (R252; 93 I7: "stuck: no command step is
  defined until reset has been applied"). Safe: the hardware goes on from a state the spec leaves unspecified (entry 6). -/
  | commandBeforeReset
  deriving DecidableEq, Repr

/-- Why the model has no meaning. -/
inductive Refusal where
  /-- Raised by `exec` for an instruction without a meaning; no arm of `exec` raises it. Safe: the model stops. -/
  | notModelled (mnemonic : String)
  deriving DecidableEq, Repr

/-- R38, the tuple's part. -/
def Engine.reset : Engine :=
  { acc := iv, buf := [], nbuf := 0, len := 0, st := .idle, fcode := 0, fcmd := 0x0000 }

/-- R38 and R251: the machine right after reset, rst low again and `cmd_ready` = 1. The last three fields are the
model's own: no move pending (entry 1), latencies 0 (entry 3), draw counter 0 (entry 4), each a DESIGN CHOICE. -/
def State.reset : State :=
  { engine := Engine.reset, phase := .ready, host := [], lat := ⟨0, 0, 0, 0, 0, 0, 0⟩, draws := 0 }

end Sys2Proof.Machine
end

