-- ==== Sys2Proof/Machine/Operands.lean ====
section
/-! DEFINITION. The views in which one width meets another (R52 to R55, R161, R165) and the operand of a command
(R72). -/

namespace Sys2Proof.Machine

/-- R72: the operand of UPDATE is DATA, unchanged: no extension, scaling or shifting. -/
def messageByte (w : CmdWord) : Byte := dataField w

/-- R52, R101: X[j] = MemRead(4*j, 4). -/
def messageWord (m : Memory) (j : Fin 16) : Word := memRead m (4 * j.val) 4 (by have := j.isLt; simp [bufSize]; omega)

/-- R161: L = (LEN + rem) mod 2^64. -/
def messageLength (e : Engine) : BitVec 64 := e.len + e.nbuf.setWidth 64

/-- R161: bitlen = (L * 8) mod 2^64. -/
def bitLength (e : Engine) : BitVec 64 := messageLength e * 8

/-- acc[j] (R11, R21). -/
def Acc.word (r : Acc) (j : Fin 4) : Word :=
  match j with
  | 0 => r.a
  | 1 => r.b
  | 2 => r.c
  | 3 => r.d

/-- R165, R54: Dg[4j + t] = acc[j][8t+7 : 8t]. -/
def digestByte (r : Acc) (n : Fin 16) : Byte :=
  (Acc.word r ⟨n.val / 4, by omega⟩).extractLsb' (8 * (n.val % 4)) 8

/-- R165: the digest, Dg[0] first. -/
def digestBytes (r : Acc) : List Byte := (List.finRange 16).map (digestByte r)

/-- R29: digest[8k+7:8k] = Dg[k]. -/
def digestWord (r : Acc) : BitVec 128 := BitVec.ofNat 128 (littleEndian (digestBytes r))

end Sys2Proof.Machine
end

