-- ==== Sys2Proof/Machine/Compress.lean ====
section
/-! DEFINITION. The Compression Function (R8, R100 to R115): a pure map from an accumulator and a block to a new
accumulator. -/

namespace Sys2Proof.Machine

/-- R8: rotl(x, n), for 1 ≤ n ≤ 31. -/
def rotl (x : Word) (n : Nat) : Word := (x <<< n) ||| (x >>> (32 - n))

/-- R103 -/
def f0 (b c d : Word) : Word := (b &&& c) ||| (~~~b &&& d)

/-- R104 -/
def f1 (b c d : Word) : Word := (b &&& d) ||| (c &&& ~~~d)

/-- R105 -/
def f2 (b c d : Word) : Word := b ^^^ c ^^^ d

/-- R106 -/
def f3 (b c d : Word) : Word := c ^^^ (b ||| ~~~d)

/-- R107: stage dispatch. -/
def fStage (i : Fin 64) (b c d : Word) : Word :=
  match stageOf i with
  | 0 => f0 b c d
  | 1 => f1 b c d
  | 2 => f2 b c d
  | 3 => f3 b c d

/-- temp of R111. -/
def roundTemp (i : Fin 64) (r : Acc) (x : Fin 16 → Word) : Word :=
  fStage i r.b r.c r.d + r.a + roundK i + x (roundG i)

/-- R111: one round, as simultaneous assignments. -/
def roundStep (i : Fin 64) (r : Acc) (x : Fin 16 → Word) : Acc :=
  { a := r.d, d := r.c, c := r.b, b := r.b + rotl (roundTemp i r x) (roundR i) }

/-- The 64 rounds in increasing order (R113). Irreducible, so that no unifier runs 64 rounds; the kernel still computes
them. -/
@[irreducible] def allRounds (x : Fin 16 → Word) (r : Acc) : Acc := (List.finRange 64).foldl (fun r i => roundStep i r x) r

/-- R113: the feed-forward; each addition wraps silently. -/
def feedForward (acc r : Acc) : Acc := ⟨acc.a + r.a, acc.b + r.b, acc.c + r.c, acc.d + r.d⟩

/-- R113 on the message words X[0..16). -/
def compressWords (acc : Acc) (x : Fin 16 → Word) : Acc := feedForward acc (allRounds x acc)

/-- R100, R113: Compress(acc, BUF). -/
def compress (acc : Acc) (blk : Memory) : Acc := compressWords acc (messageWord blk)

end Sys2Proof.Machine
end

