-- ==== Sys2Proof/Machine/Flags.lean ====
section
/-! DEFINITION. The status view and the output ports (R29, R32 to R34, R257): "The status bits in STATUS are the only
flags" (R32). Every output is a function of the state; reading one changes nothing (R57). -/

namespace Sys2Proof.Machine

/-- R27, column value. -/
def Lifecycle.bits : Lifecycle → BitVec 2
  | .idle => 0
  | .absorb => 1
  | .done => 2
  | .fault => 3

/-- The fields of the tuple that STATUS shows. -/
def shown (e : Engine) : Shown := { st := e.st, nbuf := e.nbuf, fcode := e.fcode, fcmd := e.fcmd }

/-- R33: FCMD[31:16], reserved [15:14] = 0, NBUF[13:8], FCODE[7:4], BUSY[3], DIGEST_VALID[2], ST[1:0]. -/
def statusWord (digestValid busy : Bool) (f : Shown) : BitVec 32 :=
  ((((((f.fcmd ++ (0 : BitVec 2)) ++ f.nbuf) ++ f.fcode) ++ BitVec.ofBool busy) ++ BitVec.ofBool digestValid) ++
    f.st.bits)

/-- R257: each field shows its value before or after the command in progress, by a draw of its own. -/
def drawShown (n : Nat) (before after : Shown) : Shown :=
  { st := if Config.showsNew n .st then after.st else before.st
    nbuf := if Config.showsNew n .nbuf then after.nbuf else before.nbuf
    fcode := if Config.showsNew n .fcode then after.fcode else before.fcode
    fcmd := if Config.showsNew n .fcmd then after.fcmd else before.fcmd }

/-- `cmd_ready`, DIGEST_VALID and the digest when no command is in progress: DIGEST_VALID = 1 when ST = DONE and BUSY = 0
(R33), and `digest` reads all zeros when DIGEST_VALID = 0 (R29). -/
def readyPorts (e : Engine) : Ports :=
  { cmdReady := true
    status := statusWord (decide (e.st = .done)) false (shown e)
    digest := if e.st = .done then digestWord e.acc else 0 }

/-- The ports while `cmd_ready` = 0: BUSY = 1, DIGEST_VALID = 0, digest 0 (R33, R257). -/
def busyPorts (f : Shown) : Ports := { cmdReady := false, status := statusWord false true f, digest := 0 }

/-- The input rst in this cycle: what the host drives at the edge that ends it (R34, R250; entry 16). -/
def rstHigh (s : State) : Bool :=
  match s.host with
  | .reset :: _ => true
  | .idle :: _ => false
  | .command _ :: _ => false
  | [] => false

/-- R34: the outputs. In every cycle with rst = 1, `cmd_ready` = 0, status = 0x00000008 and digest = 0 (R38, R250;
entry 5). Before the first reset, with rst = 0, they are free (R252; entry 6). -/
def ports (s : State) : Ports :=
  if rstHigh s then busyPorts (shown Engine.reset)
  else
    match s.phase with
    | .unreset => Config.portsBeforeReset s.draws
    | .ready => readyPorts s.engine
    | .busy _ before => busyPorts (drawShown s.draws before (shown s.engine))

/-- STATUS bit 2 (R33). -/
def digestValid (s : State) : Bool := (ports s).status.getLsbD 2

/-- STATUS bit 3 (R33). -/
def busyFlag (s : State) : Bool := (ports s).status.getLsbD 3

end Sys2Proof.Machine
end

