-- ==== Sys2Proof/Machine/Ops.lean ====
section
/-! DEFINITION. The shared operations on the tuple: taking a fault (R227) and leaving it (R180, R229), absorbing a byte
(R140, R141), padding (R160 to R164), and reset (R250). -/

namespace Sys2Proof.Machine

/-- R227: FaultEntry(S, code, w) writes ST, FCODE and FCMD and changes nothing else. -/
def faultEntry (code : FaultCode) (w : CmdWord) (e : Engine) : Engine :=
  { e with st := .fault, fcode := code.bits, fcmd := w }

/-- R180: the tuple after INIT, one value whatever stood before. It is also the only way out of FAULT that a command has
(R229): FCODE and FCMD are cleared. -/
def freshOperation : Engine :=
  { acc := iv, buf := [], nbuf := 0, len := 0, st := .absorb, fcode := 0, fcmd := 0x0000 }

/-- MemWrite(NBUF, 1, v) (R140, R160). -/
def writeAtNbuf (e : Engine) (v : Byte) : Memory :=
  memWrite e.buf e.nbuf.toNat 1 v (by have := e.nbuf.isLt; simp [bufSize]; omega)

/-- R140, the part for ST = ABSORB, with R141 and R144: append one byte, and compress when it is the 64th. -/
def absorbByte (data : Byte) (e : Engine) : Engine :=
  let buf := writeAtNbuf e data
  let n := e.nbuf.toNat + 1
  if n = 64 then
    { e with buf := buf, acc := compress e.acc buf, len := e.len + 64, nbuf := 0 }
  else
    { e with buf := buf, nbuf := BitVec.ofNat 6 n }

/-- R162, R163: 0x80 at rem, and zeros from rem+1 to 63. -/
def padMark (e : Engine) : Memory := zeroRange (writeAtNbuf e 0x80) (e.nbuf.toNat + 1) 64 (by simp [bufSize])

/-- R53: MemWrite(56, 8, bitlen). -/
def writeLength (m : Memory) (bitlen : BitVec 64) : Memory := memWrite m 56 8 bitlen (by simp [bufSize])

/-- R163: the second block, zeros in 0..55 and the length field. -/
def lengthBlock (m : Memory) (bitlen : BitVec 64) : Memory := writeLength (zeroRange m 0 56 (by simp [bufSize])) bitlen

/-- R160, the part for ST = ABSORB: pad, compress once (rem < 56, R162) or twice (rem ≥ 56, R163), and go to DONE
(R165, R166). -/
def finishMessage (e : Engine) : Engine :=
  let padded := padMark e
  if e.nbuf.toNat < 56 then
    let buf := writeLength padded (bitLength e)
    { e with buf := buf, acc := compress e.acc buf, nbuf := 0, st := .done }
  else
    let buf := lengthBlock padded (bitLength e)
    { e with buf := buf, acc := compress (compress e.acc padded) buf, nbuf := 0, st := .done }

/-- R181, the part outside FAULT. -/
def abandonOperation (e : Engine) : Engine := { e with nbuf := 0, st := .idle }

/-- The same machine with another tuple. -/
def State.withEngine (s : State) (e : Engine) : State := { s with engine := e }

/-- R10, R227: `raise Fault(code, cmd)` ends the command, with no effect but the fault entry. -/
def raiseFault (code : FaultCode) (w : CmdWord) (s : State) : State := s.withEngine (faultEntry code w s.engine)

/-- R226, R228: an illegal word raises its code, and is ignored in FAULT. -/
def illegalWord (code : FaultCode) (w : CmdWord) (s : State) : State :=
  if s.engine.st = .fault then s else raiseFault code w s

/-- R182: the command step on the tuple, as the spec writes it. Claims about whole command programs are stated in terms
of it; that the machine's step agrees with it is an obligation. -/
def commandStep (e : Engine) (w : CmdWord) : Engine :=
  if e.st = .fault then
    if w = 0x1000 then freshOperation else e
  else
    match decode w with
    | .illegal code => faultEntry code w e
    | .legal .init => freshOperation
    | .legal .abort => abandonOperation e
    | .legal (.update data) => if e.st = .absorb then absorbByte data e else faultEntry .badState w e
    | .legal .final => if e.st = .absorb then finishMessage e else faultEntry .badState w e

/-- The latency of an accepted word, by the tuple it finds (R256): faulting and ignored words have latencies of their
own. -/
def latencyOf (lat : Latencies) (e : Engine) (w : CmdWord) : Nat :=
  if e.st = .fault then (if w = 0x1000 then lat.tInit else lat.tIgnored)
  else
    match decode w with
    | .illegal _ => lat.tFault
    | .legal .init => lat.tInit
    | .legal .abort => lat.tAbort
    | .legal (.update _) =>
      if e.st = .absorb then (if e.nbuf.toNat + 1 = 64 then lat.tBlock else lat.tUpdate) else lat.tFault
    | .legal .final => if e.st = .absorb then lat.tFinal else lat.tFault

/-- The phase in which `cmd_ready` stays 0 for `n` cycles (R256). -/
def busyFor (n : Nat) (before : Shown) : Phase :=
  match n with
  | 0 => .ready
  | more + 1 => .busy more before

/-- One rising edge with rst = 1, in any phase (R250): every element of the tuple takes its reset value, and nothing of a
command in progress survives. The draw counter advances, so a busy cycle that a reset ends shares its draw with no later
cycle (R257; entry 4). -/
def resetEdge (s : State) : State := { s with engine := Engine.reset, phase := .ready, draws := s.draws + 1 }

/-- One rising edge with rst = 0 at which no command is accepted (R254): the tuple keeps its value. A busy engine comes
one cycle nearer to `cmd_ready` = 1 (R256), and the next cycle has a draw of its own (R257; entry 4). -/
def quietEdge (s : State) : State :=
  match s.phase with
  | .unreset => { s with draws := s.draws + 1 }
  | .ready => s
  | .busy more before => { s with phase := busyFor more before, draws := s.draws + 1 }

end Sys2Proof.Machine
end

