-- ==== Sys2Proof/Machine/Absorb.lean ====
section
/-! DEFINITION. The command UPDATE (41_absorb.md R140). -/

namespace Sys2Proof.Machine

/-- UPDATE (R140): appends a byte in ABSORB, raises BAD_STATE in IDLE and DONE (R224), is ignored in FAULT (R228). FCMD
takes the offending word, which is the command's only encoding (R75; entry 8). -/
def execUpdate (data : Byte) (s : State) : Host.Outcome State Fault Refusal :=
  match s.engine.st with
  | .fault => .next s
  | .absorb => .next (s.withEngine (absorbByte data s.engine))
  | .idle => .next (raiseFault .badState (encode (.update data)) s)
  | .done => .next (raiseFault .badState (encode (.update data)) s)

end Sys2Proof.Machine
end

