-- ==== Sys2Proof/Machine/Finalize.lean ====
section
/-! DEFINITION. The command FINAL (42_finalize.md R160), and the hex rendering of a digest (R167), which has no port. -/

namespace Sys2Proof.Machine

/-- FINAL (R160): pads and compresses in ABSORB, raises BAD_STATE in IDLE and DONE (R224), is ignored in FAULT (R228). -/
def execFinal (s : State) : Host.Outcome State Fault Refusal :=
  match s.engine.st with
  | .fault => .next s
  | .absorb => .next (s.withEngine (finishMessage s.engine))
  | .idle => .next (raiseFault .badState (encode .final) s)
  | .done => .next (raiseFault .badState (encode .final) s)

/-- R167: the alphabet 0123456789abcdef. -/
def hexAlphabet : List Char := ['0', '1', '2', '3', '4', '5', '6', '7', '8', '9', 'a', 'b', 'c', 'd', 'e', 'f']

/-- R167: h(v), the lowercase character at index v. -/
def hexDigit (v : Fin 16) : Char := hexAlphabet[v.val]'(by have := v.isLt; simp [hexAlphabet])

/-- R167: high nibble first. -/
def hexByte (b : Byte) : List Char :=
  [hexDigit (BitVec.toFin (b.extractLsb' 4 4)), hexDigit (BitVec.toFin (b.extractLsb' 0 4))]

/-- R167: hex(Dg), a pure host-side function. -/
def hexRender (digest : List Byte) : List Char := digest.flatMap hexByte

end Sys2Proof.Machine
end

