-- ==== Sys2Proof/Machine/Lifecycle.lean ====
section
/-! DEFINITION. The lifecycle commands INIT and ABORT (43_lifecycle.md R180, R181). -/

namespace Sys2Proof.Machine

/-- INIT (R180): legal in every ST, FAULT included. -/
def execInit (s : State) : Host.Outcome State Fault Refusal := .next (s.withEngine freshOperation)

/-- ABORT (R181): to IDLE from IDLE, ABSORB and DONE; ignored in FAULT (R228). -/
def execAbort (s : State) : Host.Outcome State Fault Refusal :=
  match s.engine.st with
  | .fault => .next s
  | .idle => .next (s.withEngine (abandonOperation s.engine))
  | .absorb => .next (s.withEngine (abandonOperation s.engine))
  | .done => .next (s.withEngine (abandonOperation s.engine))

end Sys2Proof.Machine
end

