-- ==== Sys2Proof/Machine/Accept.lean ====
section
/-! DEFINITION. Accepting a command word (R254, R256, R182): what one rising edge does with the host's next move. -/

namespace Sys2Proof.Machine

/-- After the command's effect, `cmd_ready` stays 0 for its latency (R256); STATUS may meanwhile show what it showed
before the command (R257). -/
def holdBusy (latency : Nat) (before : Shown) (t : State) : State := { t with phase := busyFor latency before }

/-- R182: an accepted word is processed by the rule its decoding names. The command's whole effect is in the tuple from
the acceptance edge on, and the ports hide it until `cmd_ready` returns (entry 2). -/
def acceptWord (w : CmdWord) (s : State) : Host.Outcome State Fault Refusal :=
  let latency := latencyOf s.lat s.engine w
  let before := shown s.engine
  match decode w with
  | .illegal code => .next (holdBusy latency before (illegalWord code w s))
  | .legal i =>
    match exec i s with
    | .next t => .next (holdBusy latency before t)
    | .fault r => .fault r
    | .refused r => .refused r

/-- The host presents `w` at this edge with rst = 0 (R254). It is accepted when `cmd_ready` = 1, which holds in the first
cycle after rst falls too (R38); a busy engine leaves it presented (R255). Before the first reset no command step is
defined (R252; entry 6). -/
def presentCommand (w : CmdWord) (rest : List HostMove) (s : State) : Host.Outcome State Fault Refusal :=
  match s.phase with
  | .unreset => .fault .commandBeforeReset
  | .busy _ _ => .next (quietEdge s)
  | .ready => acceptWord w { s with host := rest }

/-- One rising clock edge with the host's next move (R250, R254). A host with no move left idles, and "An engine that
receives no command keeps its state indefinitely" (R233). -/
def clockEdge (s : State) : Host.Outcome State Fault Refusal :=
  match s.host with
  | [] => .next (quietEdge s)
  | .idle :: rest => .next (quietEdge { s with host := rest })
  | .reset :: rest => .next (resetEdge { s with host := rest })
  | .command w :: rest => presentCommand w rest s

/-- The machine with `w` as the next word to be accepted: the host presents it before its other moves, and the engine
is ready for it (entry 1). -/
def presentNext (w : CmdWord) (s : State) : State := { s with host := .command w :: s.host, phase := .ready }

end Sys2Proof.Machine
end

