-- ==== Sys2Proof/Machine/Assembly.lean ====
section
/-! DEFINITION. The assembler of command programs (R77, R78, R79), a host-side tool with no state. Lexical points that
R77 leaves open are named in entry 15. -/

namespace Sys2Proof.Machine

/-- A line of a command program: R77's five forms, R78's four pseudo-instructions, and a line with no command. -/
inductive AsmLine where
  | blank
  | init
  | update (byte : Nat)
  | final
  | abort
  | word (w : Nat)
  | updateStr (s : List Char)
  | updateBytes (bytes : List Nat)
  | updateRep (byte n : Nat)
  | hash (s : List Char)
  deriving DecidableEq, Repr

/-- The ranges of R77. -/
def AsmLine.wf : AsmLine → Bool
  | .blank => true
  | .init => true
  | .update byte => byteInRange byte
  | .final => true
  | .abort => true
  | .word w => wordInRange w
  | .updateStr s => s.all asciiInRange
  | .updateBytes bytes => bytes.all byteInRange
  | .updateRep byte _ => byteInRange byte
  | .hash s => s.all asciiInRange

/-- `UPDATE <byte>`: 0x2000 | byte. -/
def updateWord (byte : Nat) : CmdWord := encode (.update (BitVec.ofNat 8 byte))

/-- R78: `UPDATE.STR`, one UPDATE for each byte of the ASCII string, in order. -/
def updateStrWords (s : List Char) : List CmdWord := s.map (fun c => updateWord c.toNat)

/-- The words a line stands for (R77, R78). -/
def AsmLine.words : AsmLine → List CmdWord
  | .blank => []
  | .init => [encode .init]
  | .update byte => [updateWord byte]
  | .final => [encode .final]
  | .abort => [encode .abort]
  | .word w => [BitVec.ofNat 16 w]
  | .updateStr s => updateStrWords s
  | .updateBytes bytes => bytes.map updateWord
  | .updateRep byte n => List.replicate n (updateWord byte)
  | .hash s => encode .init :: (updateStrWords s ++ [encode .final])

/-- The tokens of a line. -/
inductive Token where
  | word (t : List Char)
  | str (s : List Char)
  | chr (c : Char)
  | comma
  deriving DecidableEq, Repr

/-- What the lexer is inside of; text is kept in reverse. -/
inductive LexMode where
  | gap
  | word (rev : List Char)
  | str (rev : List Char)
  | quoteOpen
  | quoteClose (c : Char)
  deriving DecidableEq, Repr

def isBlank (c : Char) : Bool := c == ' ' || c == '\t'

/-- R77: `;` starts a comment outside quotes; a character in single quotes stands for its ASCII byte. -/
def lexLine : LexMode → List Char → Option (List Token)
  | .gap, [] => some []
  | .word rev, [] => some [.word rev.reverse]
  | .str _, [] => none
  | .quoteOpen, [] => none
  | .quoteClose _, [] => none
  | .gap, c :: cs =>
    if c = ';' then some []
    else if isBlank c then lexLine .gap cs
    else if c = ',' then (lexLine .gap cs).map (.comma :: ·)
    else if c = '"' then lexLine (.str []) cs
    else if c = '\'' then lexLine .quoteOpen cs
    else lexLine (.word [c]) cs
  | .word rev, c :: cs =>
    if c = ';' then some [.word rev.reverse]
    else if isBlank c then (lexLine .gap cs).map (.word rev.reverse :: ·)
    else if c = ',' then (lexLine .gap cs).map (fun ts => .word rev.reverse :: .comma :: ts)
    else if c = '"' ∨ c = '\'' then none
    else lexLine (.word (c :: rev)) cs
  | .str rev, c :: cs =>
    if c = '"' then (lexLine .gap cs).map (.str rev.reverse :: ·) else lexLine (.str (c :: rev)) cs
  | .quoteOpen, c :: cs => lexLine (.quoteClose c) cs
  | .quoteClose ch, c :: cs => if c = '\'' then (lexLine .gap cs).map (.chr ch :: ·) else none

/-- The value of a digit in base 16. -/
def digitValue (c : Char) : Option Nat :=
  if 48 ≤ c.toNat ∧ c.toNat ≤ 57 then some (c.toNat - 48)
  else if 97 ≤ c.toNat ∧ c.toNat ≤ 102 then some (c.toNat - 87)
  else if 65 ≤ c.toNat ∧ c.toNat ≤ 70 then some (c.toNat - 55)
  else none

/-- Digits, most significant first, each below the base. -/
def digitsValue (base : Nat) : Nat → List Char → Option Nat
  | acc, [] => some acc
  | acc, c :: cs =>
    match digitValue c with
    | some d => if d < base then digitsValue base (acc * base + d) cs else none
    | none => none

/-- R77: numbers are decimal or `0x` hex. -/
def parseNumber : List Char → Option Nat
  | [] => none
  | '0' :: 'x' :: [] => none
  | '0' :: 'x' :: c :: cs => digitsValue 16 0 (c :: cs)
  | c :: cs => digitsValue 10 0 (c :: cs)

/-- R77: a byte operand is a number or a quoted character. DESIGN CHOICE (entry 15): a quoted character that has no ASCII
byte is refused, as in a quoted text. -/
def parseByte : Token → Option Nat
  | .word t => parseNumber t
  | .chr c => if asciiInRange c then some c.toNat else none
  | .str _ => none
  | .comma => none

/-- `b0, b1, ...` (R78). -/
def parseByteList : List Token → Option (List Nat)
  | [] => none
  | [t] => (parseByte t).map (fun b => [b])
  | t :: .comma :: ts =>
    match parseByte t with
    | some b => (parseByteList ts).map (b :: ·)
    | none => none
  | _ :: _ :: _ => none

/-- R77: mnemonics are case-insensitive. -/
def upperCase (t : List Char) : List Char :=
  t.map (fun c => if 97 ≤ c.toNat ∧ c.toNat ≤ 122 then Char.ofNat (c.toNat - 32) else c)

/-- The spellings of R77 and R78. -/
inductive Mnemonic where
  | init
  | update
  | final
  | abort
  | word
  | updateStr
  | updateBytes
  | updateRep
  | hash
  deriving DecidableEq, Repr

def mnemonicTable : List (List Char × Mnemonic) :=
  [(['I', 'N', 'I', 'T'], .init),
   (['U', 'P', 'D', 'A', 'T', 'E'], .update),
   (['F', 'I', 'N', 'A', 'L'], .final),
   (['A', 'B', 'O', 'R', 'T'], .abort),
   (['.', 'W', 'O', 'R', 'D'], .word),
   (['U', 'P', 'D', 'A', 'T', 'E', '.', 'S', 'T', 'R'], .updateStr),
   (['U', 'P', 'D', 'A', 'T', 'E', '.', 'B', 'Y', 'T', 'E', 'S'], .updateBytes),
   (['U', 'P', 'D', 'A', 'T', 'E', '.', 'R', 'E', 'P'], .updateRep),
   (['H', 'A', 'S', 'H'], .hash)]

def mnemonicOf (t : List Char) : Option Mnemonic := mnemonicTable.lookup (upperCase t)

/-- The operands of a mnemonic (R77, R78). DESIGN CHOICE (entry 15): a quoted character stands where a byte is expected
and nowhere else, so not for the word of `.WORD` and not for the count of `UPDATE.REP`. -/
def parseOperands : Mnemonic → List Token → Option AsmLine
  | .init, [] => some .init
  | .final, [] => some .final
  | .abort, [] => some .abort
  | .update, [t] => (parseByte t).map .update
  | .word, [.word t] => (parseNumber t).map .word
  | .updateStr, [.str s] => some (.updateStr s)
  | .updateBytes, ts => (parseByteList ts).map .updateBytes
  | .updateRep, [t, .comma, .word n] =>
    match parseByte t, parseNumber n with
    | some byte, some n => some (.updateRep byte n)
    | _, _ => none
  | .hash, [.str s] => some (.hash s)
  | _, _ => none

/-- One line of text, "one command per line" (R77). -/
def parseLine (text : List Char) : Option AsmLine :=
  match lexLine .gap text with
  | some [] => some .blank
  | some (.word t :: ts) =>
    match mnemonicOf t with
    | some m => parseOperands m ts
    | none => none
  | some (.str _ :: _) => none
  | some (.chr _ :: _) => none
  | some (.comma :: _) => none
  | none => none

/-- The words of a line of text, `none` when it is no line of R77 or R78 or a number is out of range. -/
def assembleLine (text : List Char) : Option (List CmdWord) :=
  match parseLine text with
  | some l => if l.wf then some l.words else none
  | none => none

/-- R79: a command program is the words of its lines, in order. -/
def assemble : List (List Char) → Option (List CmdWord)
  | [] => some []
  | line :: lines =>
    match assembleLine line, assemble lines with
    | some ws, some rest => some (ws ++ rest)
    | _, _ => none

end Sys2Proof.Machine
end

