-- ==== Sys2Proof/Machine/Message.lean ====
section
/-! DEFINITION. The document's digest operation on a whole message (R162, R163, R168), written on the message alone, with
no buffer and no state: what the engine's command program is held to. -/

namespace Sys2Proof.Machine

/-- R168, R78: the command program of `hash`: INIT, one UPDATE a byte, FINAL. -/
def hashCommands (message : List Byte) : List CmdWord :=
  encode .init :: (message.map (fun b => encode (.update b)) ++ [encode .final])

/-- R162: "append `0` bits until the buffer length is congruent to 56 modulo 64": how many zero bytes follow 0x80. -/
def zeroCount (length : Nat) : Nat := (119 - length % 64) % 64

/-- R161, R53: the low 64 bits of the bit length, little-endian. -/
def lengthField (length : Nat) : List Byte := bytesOf 8 (BitVec.ofNat 64 (8 * length))

/-- R162: the message, 0x80, zeros, the length field. -/
def paddedMessage (message : List Byte) : List Byte :=
  message ++ [0x80] ++ List.replicate (zeroCount message.length) 0x00 ++ lengthField message.length

/-- X[j] of a block of 64 listed bytes (R52). -/
def listWord (block : List Byte) (j : Fin 16) : Word :=
  BitVec.ofNat 32 (littleEndian ((block.drop (4 * j.val)).take 4))

/-- The i-th block of 64 bytes. -/
def blockAt (bytes : List Byte) (i : Nat) : List Byte := (bytes.drop (64 * i)).take 64

/-- The accumulator after the first `n` blocks of `bytes`, compressed in order from IV. -/
def absorbBlocks (bytes : List Byte) : Nat → Acc
  | 0 => iv
  | n + 1 => compressWords (absorbBlocks bytes n) (listWord (blockAt bytes n))

/-- The MD5 digest of a message (R165, R168). -/
def md5 (message : List Byte) : List Byte :=
  digestBytes (absorbBlocks (paddedMessage message) ((paddedMessage message).length / 64))

end Sys2Proof.Machine
end

