-- ==== Sys2Proof/Machine/Sequencer.lean ====
section
/-! DEFINITION. The hidden state machine of a round-serial compression (R36, R114). "Its states are not architectural":
no field of State holds it; that it computes Compress is an obligation (entry 13). -/

namespace Sys2Proof.Machine

/-- R114: COMP_IDLE, COMP_ROUND (i = 0..63) and COMP_ADD, with the working registers of R36. -/
inductive SeqPhase where
  | compIdle
  | compRound (i : Fin 64) (r : Acc)
  | compAdd (r : Acc)
  deriving DecidableEq, Repr

/-- ACC beside the hidden sequencer. -/
structure Sequencer where
  acc : Acc
  seq : SeqPhase
  deriving DecidableEq, Repr

/-- One cycle of R114's machine over the message words X: load, then one round a cycle, then the feed-forward. -/
def seqStep (x : Fin 16 → Word) (q : Sequencer) : Sequencer :=
  match q.seq with
  | .compIdle => { q with seq := .compRound 0 q.acc }
  | .compRound i r =>
    if h : i.val + 1 < 64 then { q with seq := .compRound ⟨i.val + 1, h⟩ (roundStep i r x) }
    else { q with seq := .compAdd (roundStep i r x) }
  | .compAdd r => { acc := feedForward q.acc r, seq := .compIdle }

/-- `n` cycles. -/
def seqRun (x : Fin 16 → Word) : Nat → Sequencer → Sequencer
  | 0, q => q
  | n + 1, q => seqRun x n (seqStep x q)

end Sys2Proof.Machine
end

