-- ==== Sys2Proof/Safety.lean ====
section
/-! DEFINITION. The terms that claims use: the invariants of R39, what a run is and when it ends (R59, R79, R259), and
what a hash operation has absorbed. -/

namespace Sys2Proof.Machine

/-- R39 (an inference the spec marks as its own), with R28, R221 and the buffer's canonical form: what holds of the tuple
at every command boundary. NBUF ≤ 63 holds by its width. -/
structure Engine.Inv (e : Engine) : Prop where
  bufWf : e.buf.wf = true
  lenAligned : e.len.toNat % 64 = 0
  idleEmpty : e.st = .idle → e.nbuf = 0
  doneEmpty : e.st = .done → e.nbuf = 0
  faultCoded : e.fcode ≠ 0 ↔ e.st = .fault
  noFaultNoWord : e.fcode = 0 → e.fcmd = 0
  codeRaised : e.fcode.toNat ≤ 3

/-- The invariant of the machine: once a reset has been applied, the tuple has R39's invariants. Before the first reset
nothing is said of it (R252). -/
structure State.Inv (s : State) : Prop where
  engineInv : s.phase ≠ .unreset → s.engine.Inv

/-- The host presents `w` to an engine with `cmd_ready` = 1 (R254), and has the moves `rest` after it. -/
def Presents (s : State) (w : CmdWord) (rest : List HostMove) : Prop :=
  s.phase = .ready ∧ s.host = .command w :: rest

/-- `n` steps of the machine (R79). -/
def runSteps (n : Nat) (s : State) : Host.Outcome State Fault Refusal := Host.Core.run Sys2Proof.core n s

/-- R259: every word accepted, and `cmd_ready` = 1 again. -/
def runEnded (s : State) : Bool := decide (s.host = []) && decide (s.phase = .ready)

/-- R259: the observation of a run, the pair (status, digest). -/
def observation (s : State) : BitVec 32 × BitVec 128 := ((ports s).status, (ports s).digest)

/-- The words among the host's moves, in order. -/
def commandWords (moves : List HostMove) : List CmdWord :=
  moves.filterMap (fun m => match m with
    | .command w => some w
    | .idle => none
    | .reset => none)

/-- R79: the tuple after a command program. -/
def runCommands (e : Engine) (ws : List CmdWord) : Engine := ws.foldl commandStep e

/-- R39, last bullet: `message` is what the open operation has absorbed since INIT. Its full blocks are in ACC and LEN,
its last NBUF bytes are buf[0..NBUF). -/
structure Absorbed (message : List Byte) (e : Engine) : Prop where
  st : e.st = .absorb
  acc : e.acc = absorbBlocks message (message.length / 64)
  len : e.len = BitVec.ofNat 64 (64 * (message.length / 64))
  nbuf : e.nbuf.toNat = message.length % 64
  buf : readBytes e.buf 0 (message.length % 64) = message.drop (64 * (message.length / 64))

/-- R142: two tuples that differ at most in stale bytes of BUF, the bytes at indices ≥ NBUF. -/
structure StaleEquivalent (e f : Engine) : Prop where
  acc : e.acc = f.acc
  nbuf : e.nbuf = f.nbuf
  len : e.len = f.len
  st : e.st = f.st
  fcode : e.fcode = f.fcode
  fcmd : e.fcmd = f.fcmd
  live : ∀ k < e.nbuf.toNat, readByte e.buf k = readByte f.buf k

end Sys2Proof.Machine
end

