-- ==== Sys2Proof/Certificates/Slice0/Obligations.lean ====
section
/-! DEFINITION. The statements for the provers. Each docstring names the rules of spec/ it comes from; "entry n" is the
model's own log, and marks what is the model's choice and no rule of the spec. -/

open Sys2Proof Sys2Proof.Machine

/-! ### Reset and the first edges -/

/-- R38, R22: the state after reset, element by element, and what the ports show in it. -/
def Obligations.ResetStateHoldsTheTable : Prop :=
  State.reset.engine.acc = ⟨0x67452301, 0xEFCDAB89, 0x98BADCFE, 0x10325476⟩ ∧
  (∀ k < 64, readByte State.reset.engine.buf k = 0x00) ∧
  State.reset.engine.nbuf = 0 ∧ State.reset.engine.len = 0 ∧ State.reset.engine.st = .idle ∧
  State.reset.engine.fcode = 0 ∧ State.reset.engine.fcmd = 0x0000 ∧
  ports State.reset = { cmdReady := true, status := 0x00000000, digest := 0 }

/-- R250, R38, R254: one edge with rst = 1, from any phase and any tuple: `cmd_ready` = 0 and status = 0x00000008 in the
cycle with rst = 1, every element takes its reset value, and nothing of a command in progress survives. In the first cycle
with rst = 0, `cmd_ready` = 1 and status = 0, and a word presented in it, legal or not, is accepted at the edge that ends
it. That the outputs follow rst in the same cycle is entry 5; the accepted word's tuple is read at the acceptance edge
(entry 2). -/
def Obligations.ResetEdgeRestoresTheTable : Prop :=
  ∀ (s : State) (rest : List HostMove), s.host = .reset :: rest →
    ports s = { cmdReady := false, status := 0x00000008, digest := 0 } ∧
    ∃ t, step s = .next t ∧ t.host = rest ∧ t.phase = .ready ∧
      t.engine.acc = ⟨0x67452301, 0xEFCDAB89, 0x98BADCFE, 0x10325476⟩ ∧
      (∀ k < 64, readByte t.engine.buf k = 0x00) ∧
      t.engine.nbuf = 0 ∧ t.engine.len = 0 ∧ t.engine.st = .idle ∧ t.engine.fcode = 0 ∧ t.engine.fcmd = 0x0000 ∧
      (rstHigh t = false → ports t = { cmdReady := true, status := 0x00000000, digest := 0 }) ∧
      (∀ rest', rest = .idle :: rest' → ∃ u, step t = .next u ∧ u.host = rest' ∧ u.engine = t.engine) ∧
      (∀ w rest', rest = .command w :: rest' →
        ∃ u, step t = .next u ∧ u.host = rest' ∧ u.engine = commandStep t.engine w)

/-- R252 with 93 I7 (the model's reading, entry 6): before the first reset a command stops the model, a reset edge reads
nothing of the tuple it finds, and an idle cycle leaves the unspecified tuple alone. -/
def Obligations.NoCommandBeforeTheFirstReset : Prop :=
  ∀ s : State, s.phase = .unreset →
    (∀ w rest, s.host = .command w :: rest → step s = .fault .commandBeforeReset) ∧
    (∀ rest e, s.host = .reset :: rest → step (s.withEngine e) = step s) ∧
    (∀ rest, s.host = .idle :: rest → ∃ t, step s = .next t ∧ t.engine = s.engine ∧ t.phase = .unreset)

/-! ### The step runs the decoded command -/

/-- R182, R254, R256: the step at a presented legal word is `exec` of the decoded command, then `cmd_ready` low for the
word's latency. That the tuple has the effect from the acceptance edge on is entry 2. A word presented in the first cycle
after a reset finds the same phase (ResetEdgeRestoresTheTable). -/
def Obligations.StepRunsTheDecodedCommand : Prop :=
  ∀ (s : State) (w : CmdWord) (rest : List HostMove) (i : Instr),
    s.phase = .ready → s.host = .command w :: rest → decode w = .legal i →
      ∃ t, exec i { s with host := rest } = .next t ∧
        step s = .next { t with phase := busyFor (latencyOf s.lat s.engine w) (shown s.engine) }

/-- The word of an opcode-table row, placed by `withFetchWord` (entry 1) as the low 16 bits of the row's number (entry 14),
is the one the very next step runs; that this step leaves `exec`'s whole tuple is the acceptance-edge reading (entry 2). -/
def Obligations.StepRunsTheFetchWord : Prop :=
  ∀ (s : State) (nbits w : Nat) (i : Instr), decodeTableWord nbits w = some i →
    ∃ t, exec i { s with phase := .ready } = .next t ∧
      step (s.withFetchWord nbits w) =
        .next { t with phase := busyFor (latencyOf s.lat s.engine (tableWord nbits w)) (shown s.engine) }

/-- R182: whatever word a ready engine is presented, the step accepts it and leaves the tuple of R182's function; the
host's other moves, the latencies and the draw counter are unchanged. A word presented in the first cycle after a reset is one of
these (ResetEdgeRestoresTheTable). The tuple is read at the acceptance edge (entry 2). -/
def Obligations.AcceptedWordFollowsTheCommandStep : Prop :=
  ∀ (s : State) (w : CmdWord) (rest : List HostMove), Presents s w rest →
    ∃ t, step s = .next t ∧ t.engine = commandStep s.engine w ∧ t.host = rest ∧ t.lat = s.lat ∧ t.draws = s.draws

/-! ### The four commands -/

/-- R180: INIT, in every ST: the whole tuple takes one value. Its word is 0x1000, status is then 0x00000001, and any
other word with OP = 0x1 raises RESERVED_FIELD outside FAULT and is ignored in FAULT, and no other command leaves
FAULT. -/
def Obligations.InitOpensAFreshOperation : Prop :=
  encode .init = 0x1000 ∧
  (∀ (w : CmdWord) (e : Engine), w.toNat / 4096 = 1 → w ≠ 0x1000 →
    (e.st ≠ .fault → commandStep e w = { e with st := .fault, fcode := 2, fcmd := w }) ∧
    (e.st = .fault → commandStep e w = e)) ∧
  (∀ (i : Instr) (s : State), i ≠ .init → s.engine.st = .fault → exec i s = .next s) ∧
  ∀ s : State, ∃ t, exec .init s = .next t ∧ t = s.withEngine t.engine ∧
    t.engine.acc = ⟨0x67452301, 0xEFCDAB89, 0x98BADCFE, 0x10325476⟩ ∧
    (∀ k < 64, readByte t.engine.buf k = 0x00) ∧
    t.engine.nbuf = 0 ∧ t.engine.len = 0 ∧ t.engine.fcode = 0 ∧ t.engine.fcmd = 0x0000 ∧ t.engine.st = .absorb ∧
    (s.phase = .ready → rstHigh s = false → (ports t).status = 0x00000001)

/-- R181: ABORT outside FAULT: NBUF to 0, ST to IDLE, nothing else of the tuple or of the machine; the digest reads 0. -/
def Obligations.AbortReturnsToIdle : Prop :=
  encode .abort = 0x4000 ∧
  ∀ s : State, s.engine.st ≠ .fault → ∃ t, exec .abort s = .next t ∧ t = s.withEngine t.engine ∧
    t.engine.nbuf = 0 ∧ t.engine.st = .idle ∧
    t.engine.acc = s.engine.acc ∧ t.engine.buf = s.engine.buf ∧ t.engine.len = s.engine.len ∧
    t.engine.fcode = s.engine.fcode ∧ t.engine.fcmd = s.engine.fcmd ∧
    (s.phase = .ready → (ports t).digest = 0)

/-- R140: UPDATE in ABSORB below the 64th byte: buf[NBUF] takes the byte, NBUF counts it, and no other byte of BUF, no
other element of the tuple and no other part of the machine changes. -/
def Obligations.UpdateAppendsOneByte : Prop :=
  ∀ (s : State) (data : Byte), s.engine.st = .absorb → s.engine.nbuf.toNat < 63 → s.engine.buf.wf = true →
    ∃ t, exec (.update data) s = .next t ∧ t = s.withEngine t.engine ∧
      (∀ k, readByte t.engine.buf k = if k = s.engine.nbuf.toNat then data else readByte s.engine.buf k) ∧
      t.engine.nbuf.toNat = s.engine.nbuf.toNat + 1 ∧
      t.engine.acc = s.engine.acc ∧ t.engine.len = s.engine.len ∧ t.engine.st = .absorb ∧
      t.engine.fcode = s.engine.fcode ∧ t.engine.fcmd = s.engine.fcmd ∧ t.engine.buf.wf = true

/-- R141, R144: the UPDATE that makes the buffer hold 64 bytes compresses the block into ACC, adds 64 to LEN modulo 2^64
and sets NBUF to 0, in that same command; the block's bytes stay in BUF. -/
def Obligations.UpdateCompletesTheBlock : Prop :=
  ∀ (s : State) (data : Byte), s.engine.st = .absorb → s.engine.nbuf.toNat = 63 → s.engine.buf.wf = true →
    ∃ t, exec (.update data) s = .next t ∧ t = s.withEngine t.engine ∧
      (∀ k, readByte t.engine.buf k = if k = 63 then data else readByte s.engine.buf k) ∧
      t.engine.acc = compress s.engine.acc t.engine.buf ∧
      t.engine.len.toNat = (s.engine.len.toNat + 64) % 2 ^ 64 ∧
      t.engine.nbuf = 0 ∧ t.engine.st = .absorb ∧
      t.engine.fcode = s.engine.fcode ∧ t.engine.fcmd = s.engine.fcmd ∧ t.engine.buf.wf = true

/-- R162, R161, R166: FINAL with rem < 56: one block, the message bytes, 0x80, zeros and the little-endian bit length,
is compressed once. -/
def Obligations.FinalPadsOneBlock : Prop :=
  ∀ s : State, s.engine.st = .absorb → s.engine.nbuf.toNat < 56 → s.engine.buf.wf = true →
    ∃ t, exec .final s = .next t ∧ t = s.withEngine t.engine ∧
      (∀ k < 64, readByte t.engine.buf k =
        if k < s.engine.nbuf.toNat then readByte s.engine.buf k
        else if k = s.engine.nbuf.toNat then 0x80
        else if k < 56 then 0x00
        else ((s.engine.len + s.engine.nbuf.setWidth 64) * 8).extractLsb' (8 * (k - 56)) 8) ∧
      t.engine.acc = compress s.engine.acc t.engine.buf ∧
      t.engine.nbuf = 0 ∧ t.engine.st = .done ∧ t.engine.len = s.engine.len ∧
      t.engine.fcode = s.engine.fcode ∧ t.engine.fcmd = s.engine.fcmd ∧ t.engine.buf.wf = true

/-- R163, R161, R166: FINAL with rem ≥ 56: the message bytes, 0x80 and zeros to 63 are compressed, then a second block of
zeros with the bit length at its tail, both in the one command; that rem is the message length modulo 64. -/
def Obligations.FinalPadsTwoBlocks : Prop :=
  ∀ s : State, s.engine.st = .absorb → 56 ≤ s.engine.nbuf.toNat → s.engine.buf.wf = true →
    ∃ t first, exec .final s = .next t ∧ t = s.withEngine t.engine ∧
      (∀ k < 64, readByte first k =
        if k < s.engine.nbuf.toNat then readByte s.engine.buf k
        else if k = s.engine.nbuf.toNat then 0x80
        else 0x00) ∧
      (∀ k < 64, readByte t.engine.buf k =
        if k < 56 then 0x00
        else ((s.engine.len + s.engine.nbuf.setWidth 64) * 8).extractLsb' (8 * (k - 56)) 8) ∧
      t.engine.acc = compress (compress s.engine.acc first) t.engine.buf ∧
      t.engine.nbuf = 0 ∧ t.engine.st = .done ∧ t.engine.len = s.engine.len ∧
      t.engine.fcode = s.engine.fcode ∧ t.engine.fcmd = s.engine.fcmd ∧ t.engine.buf.wf = true ∧
      (s.engine.len.toNat % 64 = 0 → (messageLength s.engine).toNat % 64 = s.engine.nbuf.toNat)

/-- R224: UPDATE and FINAL in IDLE or DONE raise BAD_STATE with their whole word and write nothing else, so ACC is left
as it was and the digest is withdrawn; INIT and ABORT, in any state, end in FAULT only where they are ignored there. -/
def Obligations.UpdateAndFinalOutsideAbsorbFault : Prop :=
  (∀ s : State, s.engine.st = .idle ∨ s.engine.st = .done →
    (∀ data : Byte, exec (.update data) s =
      .next (s.withEngine { s.engine with st := .fault, fcode := 3, fcmd := 0x2000 ||| data.setWidth 16 })) ∧
    exec .final s = .next (s.withEngine { s.engine with st := .fault, fcode := 3, fcmd := 0x3000 }) ∧
    (∀ t, (∃ data, exec (.update data) s = .next t) ∨ exec .final s = .next t →
      s.phase = .ready → (ports t).digest = 0 ∧ digestValid t = false)) ∧
  (∀ s t : State, exec .init s = .next t ∨ exec .abort s = .next t → t.engine.st = .fault → t = s)

/-- R228: in FAULT every command but INIT leaves the whole machine as it is; every word but 0x1000, legal or not, is
accepted by a ready engine and leaves the tuple unchanged, and STATUS goes on showing the first fault while rst = 0. -/
def Obligations.FaultIgnoresEveryWordButInit : Prop :=
  (∀ s : State, s.engine.st = .fault →
    (∀ data, exec (.update data) s = .next s) ∧ exec .final s = .next s ∧ exec .abort s = .next s) ∧
  (∀ (s : State) (w : CmdWord) (rest : List HostMove), Presents s w rest → s.engine.st = .fault → w ≠ 0x1000 →
    ∃ t, step s = .next t ∧ t.engine = s.engine ∧ t.host = rest ∧
      (rstHigh t = false →
        (ports t).status.extractLsb' 0 2 = 3 ∧ (ports t).status.extractLsb' 4 4 = s.engine.fcode ∧
        (ports t).status.extractLsb' 16 16 = s.engine.fcmd))

/-! ### Faults -/

/-- R222, R223, R226: the checks in their order, on the fields of the word as numbers, and for each fault the entry that
writes ST, FCODE and FCMD and nothing else; a well-formed word that is legal in ST records no fault. Stated of R182's
function; the machine's step follows it (AcceptedWordFollowsTheCommandStep). -/
def Obligations.WordsFaultByPriority : Prop :=
  ∀ (e : Engine) (w : CmdWord) (op rsv data : Nat), e.st ≠ .fault →
    op = w.toNat / 4096 → rsv = w.toNat / 256 % 16 → data = w.toNat % 256 →
    (¬ (1 ≤ op ∧ op ≤ 4) → commandStep e w = { e with st := .fault, fcode := 1, fcmd := w }) ∧
    (1 ≤ op ∧ op ≤ 4 → rsv ≠ 0 ∨ (op ≠ 2 ∧ data ≠ 0) →
      commandStep e w = { e with st := .fault, fcode := 2, fcmd := w }) ∧
    (rsv = 0 → op = 2 ∨ (op = 3 ∧ data = 0) → e.st ≠ .absorb →
      commandStep e w = { e with st := .fault, fcode := 3, fcmd := w }) ∧
    (rsv = 0 → op = 2 ∨ (op = 3 ∧ data = 0) → e.st = .absorb →
      (commandStep e w).st ≠ .fault ∧ (commandStep e w).fcode = e.fcode) ∧
    (rsv = 0 → data = 0 → op = 1 ∨ op = 4 → (commandStep e w).st ≠ .fault)

/-- R229: from FAULT a step either leaves the tuple alone, or is a reset edge, or accepts INIT, which clears the record
and opens a fresh operation. The tuple is read at the acceptance edge (entry 2). -/
def Obligations.OnlyInitAndResetLeaveFault : Prop :=
  ∀ s t : State, s.engine.st = .fault → step s = .next t →
    t.engine = s.engine ∨
    (∃ rest, s.host = .reset :: rest ∧ t.engine = Engine.reset) ∨
    (∃ rest, s.host = .command 0x1000 :: rest ∧ t.engine.st = .absorb ∧ t.engine.fcode = 0 ∧ t.engine.fcmd = 0 ∧
      t.engine.acc = iv ∧ t.engine.nbuf = 0 ∧ t.engine.len = 0)

/-- R28: the fault record changes in three ways alone: INIT clears it, reset clears it, and fault entry writes it, from a
state other than FAULT, with the offending word. The tuple is read at the acceptance edge (entry 2). -/
def Obligations.FaultRecordKeepsTheFirstFault : Prop :=
  ∀ s t : State, step s = .next t →
    (t.engine.fcode = s.engine.fcode ∧ t.engine.fcmd = s.engine.fcmd) ∨
    (t.engine.fcode = 0 ∧ t.engine.fcmd = 0 ∧
      ∃ rest, s.host = .reset :: rest ∨ s.host = .command 0x1000 :: rest) ∨
    (s.engine.st ≠ .fault ∧ t.engine.st = .fault ∧ t.engine.fcode ≠ 0 ∧
      ∃ rest, s.host = .command t.engine.fcmd :: rest)

/-- R182, the table of ST transitions, for every state and every word. -/
def Obligations.LifecycleTransitionTable : Prop :=
  ∀ (e : Engine) (w : CmdWord),
    (w = 0x1000 → (commandStep e w).st = .absorb) ∧
    (e.st = .fault → w ≠ 0x1000 → (commandStep e w).st = .fault) ∧
    (e.st ≠ .fault → w = 0x4000 → (commandStep e w).st = .idle) ∧
    (∀ data : Byte, w = 0x2000 ||| data.setWidth 16 →
      (e.st = .absorb → (commandStep e w).st = .absorb) ∧ (e.st ≠ .absorb → (commandStep e w).st = .fault)) ∧
    (w = 0x3000 → (e.st = .absorb → (commandStep e w).st = .done) ∧ (e.st ≠ .absorb → (commandStep e w).st = .fault)) ∧
    (∀ code, decode w = .illegal code → (commandStep e w).st = .fault)

/-! ### Encoding -/

/-- R76: the decoder is the spec's listing, on the fields of the word as numbers, for all 65,536 words. -/
def Obligations.DecodeFollowsTheListing : Prop :=
  ∀ (w : CmdWord) (op rsv data : Nat),
    op = w.toNat / 4096 → rsv = w.toNat / 256 % 16 → data = w.toNat % 256 →
    decode w =
      if op ≠ 1 ∧ op ≠ 2 ∧ op ≠ 3 ∧ op ≠ 4 then .illegal .illegalOpcode
      else if rsv ≠ 0 then .illegal .reservedField
      else if op = 2 then .legal (.update (BitVec.ofNat 8 data))
      else if data ≠ 0 then .illegal .reservedField
      else if op = 1 then .legal .init
      else if op = 3 then .legal .final
      else .legal .abort

/-- Decoding the word of any well-formed command gives it back, with every operand, and the only word that decodes to a
command is its own. -/
def Obligations.DecodeInvertsEncode : Prop :=
  (∀ i : Instr, i.wf = true → decode (encode i) = .legal i) ∧
  (∀ (w : CmdWord) (i : Instr), decode w = .legal i → encode i = w)

/-- R73: a word is legal exactly when it fits a row of the table of matches and masks, it fits the row of the command it
decodes to, and no word fits two rows. -/
def Obligations.LegalWordsFitOneTableRow : Prop :=
  (∀ w : CmdWord, (∃ i, decode w = .legal i) ↔ ∃ r ∈ opcodeTable, r.fits w = true) ∧
  (∀ (w : CmdWord) (i : Instr), decode w = .legal i → (opcodeRow i).fits w = true ∧ opcodeRow i ∈ opcodeTable) ∧
  (∀ (w : CmdWord), ∀ r ∈ opcodeTable, ∀ r' ∈ opcodeTable, r.fits w = true → r'.fits w = true → r = r')

/-- R75: of the 65,536 words exactly 259 are legal: 0x1000, 0x2000 to 0x20FF, 0x3000 and 0x4000. -/
def Obligations.LegalWordsAre259 : Prop :=
  (∀ w : CmdWord, (∃ i, decode w = .legal i) ↔
    w = 0x1000 ∨ (0x2000 ≤ w.toNat ∧ w.toNat ≤ 0x20FF) ∨ w = 0x3000 ∨ w = 0x4000) ∧
  ∃ l : List CmdWord, l.Nodup ∧ l.length = 259 ∧ ∀ w, w ∈ l ↔ ∃ i, decode w = .legal i

/-- R80, R73: words written out from the spec's encodings decode as the spec says. -/
def Obligations.SpecWordsDecode : Prop :=
  decode 0b0001000000000000 = .legal .init ∧
  decode 0b0010000001100001 = .legal (.update 0x61) ∧
  decode 0b0010000011111111 = .legal (.update 0xFF) ∧
  decode 0b0011000000000000 = .legal .final ∧
  decode 0b0100000000000000 = .legal .abort ∧
  decode 0x2161 = .illegal .reservedField ∧
  decode 0x1001 = .illegal .reservedField ∧
  decode 0x5000 = .illegal .illegalOpcode ∧
  decode 0x0000 = .illegal .illegalOpcode

/-! ### The ports and the handshake -/

/-- R33: the fields of STATUS, from the first reset on: bits 15:14 are 0, BUSY is the complement of `cmd_ready`,
DIGEST_VALID is ST = DONE and BUSY = 0, and when BUSY = 0 every field shows the tuple. -/
def Obligations.StatusLayout : Prop :=
  ∀ s : State, s.phase ≠ .unreset →
    (ports s).status.extractLsb' 14 2 = 0 ∧
    (ports s).status.getLsbD 3 = !(ports s).cmdReady ∧
    ((ports s).status.getLsbD 2 = true ↔ s.engine.st = .done ∧ (ports s).cmdReady = true) ∧
    ((ports s).cmdReady = true →
      (ports s).status.extractLsb' 0 2 =
        (match s.engine.st with | .idle => 0 | .absorb => 1 | .done => 2 | .fault => 3) ∧
      (ports s).status.extractLsb' 4 4 = s.engine.fcode ∧
      (ports s).status.extractLsb' 8 6 = s.engine.nbuf ∧
      (ports s).status.extractLsb' 16 16 = s.engine.fcmd)

/-- R29, R165, R54: when DIGEST_VALID = 1 the digest port carries Dg[0..15], byte k in lane k, A lowest; when
DIGEST_VALID = 0 it reads all zeros, so outside DONE nothing of ACC reaches the port. -/
def Obligations.DigestPortIsLittleEndian : Prop :=
  ∀ s : State, s.phase ≠ .unreset →
    (digestValid s = true →
      (∀ j t : Nat, (hj : j < 4) → t < 4 →
        (ports s).digest.extractLsb' (8 * (4 * j + t)) 8 = (s.engine.acc.word ⟨j, hj⟩).extractLsb' (8 * t) 8) ∧
      (ports s).digest.extractLsb' 0 32 = s.engine.acc.a ∧ (ports s).digest.extractLsb' 32 32 = s.engine.acc.b ∧
      (ports s).digest.extractLsb' 64 32 = s.engine.acc.c ∧ (ports s).digest.extractLsb' 96 32 = s.engine.acc.d) ∧
    (digestValid s = false → (ports s).digest = 0) ∧
    (s.engine.st ≠ .done → (ports s).digest = 0)

/-- R257: whatever the host does after an accepted word, short of a reset (idling, or holding the next word, R255), in
each of the cycles of the word's latency BUSY = 1, DIGEST_VALID = 0 and digest = 0, and each of ST, NBUF, FCODE and FCMD
shows its value before the command or after it; when BUSY returns to 0 every field shows the completed state. -/
def Obligations.BusyPortsHideTheCommand : Prop :=
  (∀ (s : State) (w : CmdWord) (rest : List HostMove) (j : Nat), Presents s w rest → (∀ m ∈ rest, m ≠ .reset) →
    j < latencyOf s.lat s.engine w →
    ∃ t, runSteps (j + 1) s = .next t ∧
      (ports t).cmdReady = false ∧ (ports t).status.getLsbD 3 = true ∧ (ports t).status.getLsbD 2 = false ∧
      (ports t).digest = 0 ∧
      ((ports t).status.extractLsb' 0 2 = s.engine.st.bits ∨
        (ports t).status.extractLsb' 0 2 = (commandStep s.engine w).st.bits) ∧
      ((ports t).status.extractLsb' 4 4 = s.engine.fcode ∨
        (ports t).status.extractLsb' 4 4 = (commandStep s.engine w).fcode) ∧
      ((ports t).status.extractLsb' 8 6 = s.engine.nbuf ∨
        (ports t).status.extractLsb' 8 6 = (commandStep s.engine w).nbuf) ∧
      ((ports t).status.extractLsb' 16 16 = s.engine.fcmd ∨
        (ports t).status.extractLsb' 16 16 = (commandStep s.engine w).fcmd)) ∧
  (∀ (s : State) (w : CmdWord) (rest : List HostMove), Presents s w rest → (∀ m ∈ rest, m ≠ .reset) →
    ∃ t, runSteps (latencyOf s.lat s.engine w + 1) s = .next t ∧ (ports t).status.getLsbD 3 = false ∧
      (ports t).status.extractLsb' 0 2 = (commandStep s.engine w).st.bits ∧
      (ports t).status.extractLsb' 4 4 = (commandStep s.engine w).fcode ∧
      (ports t).status.extractLsb' 8 6 = (commandStep s.engine w).nbuf ∧
      (ports t).status.extractLsb' 16 16 = (commandStep s.engine w).fcmd)

/-- R256, R182: after a word is accepted `cmd_ready` is 0 for exactly its latency, whatever the latencies are, and when
it is 1 again the tuple is that of R182's function and stays so while the host idles. -/
def Obligations.CompletionAfterTheLatency : Prop :=
  ∀ (s : State) (w : CmdWord), Presents s w [] →
    ∀ j : Nat, ∃ t, runSteps (j + 1) s = .next t ∧
      (ports t).cmdReady = decide (latencyOf s.lat s.engine w ≤ j) ∧
      (latencyOf s.lat s.engine w ≤ j → t.engine = commandStep s.engine w ∧ t.phase = .ready ∧ t.host = [])

/-- R256: which latency a word has, by the tuple it finds; faulting and ignored words have their own (entry 3). -/
def Obligations.LatencyByCommand : Prop :=
  ∀ (lat : Latencies) (e : Engine),
    latencyOf lat e 0x1000 = lat.tInit ∧
    (e.st = .fault → ∀ w : CmdWord, w ≠ 0x1000 → latencyOf lat e w = lat.tIgnored) ∧
    (e.st ≠ .fault → latencyOf lat e 0x4000 = lat.tAbort) ∧
    (e.st = .absorb → latencyOf lat e 0x3000 = lat.tFinal ∧
      ∀ data : Byte, latencyOf lat e (0x2000 ||| data.setWidth 16) =
        if e.nbuf.toNat = 63 then lat.tBlock else lat.tUpdate) ∧
    (e.st ≠ .fault → ∀ w : CmdWord, (commandStep e w).st = .fault → latencyOf lat e w = lat.tFault)

/-- R254, R255, R233: a cycle with cmd_valid = 0 takes nothing from the tuple, and a busy engine leaves the presented
word presented. That a busy cycle leaves the tuple alone too is the model's choice: the command's effect is in it from the
acceptance edge on (entry 2). Before the first reset the idle clauses are the model's reading (entry 6). -/
def Obligations.UnacceptedCyclesKeepTheTuple : Prop :=
  (∀ s : State, s.host = [] → ∃ t, step s = .next t ∧ t.engine = s.engine ∧ t.host = []) ∧
  (∀ (s : State) (rest : List HostMove), s.host = .idle :: rest →
    ∃ t, step s = .next t ∧ t.engine = s.engine ∧ t.host = rest) ∧
  (∀ (s : State) (w : CmdWord) (rest : List HostMove) (more : Nat) (before : Shown),
    s.phase = .busy more before → s.host = .command w :: rest →
      ∃ t, step s = .next t ∧ t.engine = s.engine ∧ t.host = s.host)

/-! ### Whole command programs -/

/-- R79, R59, R63: for every latency and every placing of idle cycles, a host that presents words and never resets comes
to the end of its run, and the tuple is then the left fold of R182's function over the words. -/
def Obligations.ProgramIsTheFold : Prop :=
  ∀ s : State, s.phase = .ready → (∀ m ∈ s.host, m ≠ .reset) →
    ∃ k t, runSteps k s = .next t ∧ runEnded t = true ∧ t.engine = runCommands s.engine (commandWords s.host)

/-- R39, last bullet, R140, R141: INIT opens an operation that has absorbed the empty message, and each UPDATE appends
its byte to the message the operation has absorbed. -/
def Obligations.UpdatesAbsorbTheMessage : Prop :=
  (∀ e : Engine, Absorbed [] (commandStep e 0x1000) ∧ (commandStep e 0x1000).buf.wf = true) ∧
  (∀ (message : List Byte) (data : Byte) (e : Engine), Absorbed message e → e.buf.wf = true →
    Absorbed (message ++ [data]) (commandStep e (encode (.update data))) ∧
      (commandStep e (encode (.update data))).buf.wf = true)

/-- R168, R162, R163, R165: for every message, every latency and every tuple the engine starts from, the program INIT,
one UPDATE a byte, FINAL runs to its end with DIGEST_VALID = 1 and the digest port carrying the MD5 digest of the message,
computed on the padded message alone. -/
def Obligations.HashProgramPublishesMd5 : Prop :=
  ∀ (s : State) (message : List Byte), s.phase = .ready → s.host = (hashCommands message).map .command →
    ∃ k t, runSteps k s = .next t ∧ runEnded t = true ∧ digestValid t = true ∧ t.engine.fcode = 0 ∧
      ∀ n < 16, (ports t).digest.extractLsb' (8 * n) 8 = (md5 message).getD n 0

/-- R142: stale bytes of BUF never reach an output: tuples that differ in stale bytes alone keep differing in stale bytes
alone, under every command program, and show the same ports. -/
def Obligations.StaleBytesNeverShow : Prop :=
  ∀ (e f : Engine) (ws : List CmdWord), e.buf.wf = true → f.buf.wf = true → StaleEquivalent e f →
    StaleEquivalent (runCommands e ws) (runCommands f ws) ∧
      readyPorts (runCommands e ws) = readyPorts (runCommands f ws)

/-- R183: after INIT the tuple is the same whatever happened before, so nothing persists across operations. -/
def Obligations.NothingPersistsAcrossInit : Prop :=
  ∀ (e f : Engine) (before before' after : List CmdWord),
    runCommands e (before ++ 0x1000 :: after) = runCommands f (before' ++ 0x1000 :: after)

/-- R39, with FCODE at most 3 because no rule raises code 4 (R221, R225; the model's reading, entry 10): every step keeps
the invariants of the tuple. R39 speaks of command boundaries; that they hold in busy cycles too is because the tuple has
the command's effect from the acceptance edge on (entry 2). -/
def Obligations.StepKeepsTheInvariant : Prop :=
  ∀ s t : State, s.Inv → step s = .next t → t.Inv

/-- R39: the state after reset has them. -/
def Obligations.ResetHasTheInvariant : Prop := State.reset.Inv

/-- R165, R230: a step ends in DONE only by staying there with the tuple unchanged, or by accepting FINAL in ABSORB: a
digest is immutable once produced, and nothing else produces one. That the step which accepts FINAL is the one that ends
in DONE reads the tuple at the acceptance edge (entry 2). -/
def Obligations.DoneOnlyThroughFinal : Prop :=
  ∀ s t : State, step s = .next t → t.engine.st = .done →
    (s.engine.st = .done ∧ t.engine = s.engine) ∨
    (s.engine.st = .absorb ∧ ∃ rest, s.host = .command 0x3000 :: rest)

/-- R230: a host that never issues FINAL gets no digest, whatever else it issues. -/
def Obligations.NoFinalNoDigest : Prop :=
  ∀ (e : Engine) (ws : List CmdWord), e.st ≠ .done → (0x3000 : CmdWord) ∉ ws → (runCommands e ws).st ≠ .done

/-- R161: below 2^61 bytes the length counter and the length field are exact. -/
def Obligations.BitLengthIsExact : Prop :=
  ∀ (message : List Byte) (e : Engine), Absorbed message e → message.length < 2 ^ 61 →
    (messageLength e).toNat = message.length ∧ (bitLength e).toNat = 8 * message.length

/-! ### The compression function and the buffer -/

/-- R100, R115: Compress reads the 64 bytes of the block and nothing else of the buffer's list. -/
def Obligations.CompressReadsOnlyTheBlock : Prop :=
  ∀ (acc : Acc) (m m' : Memory), (∀ k < 64, readByte m k = readByte m' k) → compress acc m = compress acc m'

/-- R103 to R107: the auxiliary functions by formula and bit by bit, the rounds that use each, and the spec's example of
each. -/
def Obligations.AuxFunctionsBitByBit : Prop :=
  (∀ b c d : Word,
    f0 b c d = (b &&& c) ||| (~~~b &&& d) ∧ f1 b c d = (b &&& d) ||| (c &&& ~~~d) ∧
    f2 b c d = b ^^^ c ^^^ d ∧ f3 b c d = c ^^^ (b ||| ~~~d)) ∧
  (∀ (i : Fin 64) (b c d : Word), fStage i b c d =
    if i.val ≤ 15 then f0 b c d else if i.val ≤ 31 then f1 b c d else if i.val ≤ 47 then f2 b c d else f3 b c d) ∧
  (∀ (b c d : Word) (n : Nat), n < 32 →
    (f0 b c d).getLsbD n = (if b.getLsbD n then c.getLsbD n else d.getLsbD n) ∧
    (f1 b c d).getLsbD n = (if d.getLsbD n then b.getLsbD n else c.getLsbD n) ∧
    (f2 b c d).getLsbD n = ((b.getLsbD n ^^ c.getLsbD n) ^^ d.getLsbD n) ∧
    (f3 b c d).getLsbD n = (c.getLsbD n ^^ (b.getLsbD n || !d.getLsbD n))) ∧
  f0 0xefcdab89 0x98badcfe 0x10325476 = 0x98badcfe ∧ f1 0xefcdab89 0x98badcfe 0x10325476 = 0x88888888 ∧
  f2 0xefcdab89 0x98badcfe 0x10325476 = 0x67452301 ∧ f3 0xefcdab89 0x98badcfe 0x10325476 = 0x77777777

/-- R8: rotl moves bit k to bit (k + n) mod 32. -/
def Obligations.RotlMovesEveryBit : Prop :=
  ∀ (x : Word) (n k : Nat), 1 ≤ n → n ≤ 31 → k < 32 → (rotl x n).getLsbD ((k + n) % 32) = x.getLsbD k

/-- R108: the table K is floor(2^32 * |sin(i+1)|), sin in radians. -/
def Obligations.KTableIsTheSineFormula : Prop :=
  ∀ i : Fin 64, (roundK i).toNat = ⌊(2 : ℝ) ^ 32 * |Real.sin ((i.val : ℝ) + 1)|⌋₊

/-- R109, R110: the tables R and G as listed (values supplied by the spec, entry 11), R within 4..23, and G a permutation
of 0..15 in each stage. -/
def Obligations.RoundTablesAsListed : Prop :=
  (∀ i : Fin 64, roundR i = [7, 12, 17, 22, 5, 9, 14, 20, 4, 11, 16, 23, 6, 10, 15, 21].getD (4 * (i.val / 16) + i.val % 4) 0 ∧
    4 ≤ roundR i ∧ roundR i ≤ 23) ∧
  (∀ r : Fin 16,
    (roundG ⟨r.val, by omega⟩).val = r.val ∧ (roundG ⟨16 + r.val, by omega⟩).val = (5 * r.val + 1) % 16 ∧
    (roundG ⟨32 + r.val, by omega⟩).val = (3 * r.val + 5) % 16 ∧ (roundG ⟨48 + r.val, by omega⟩).val = (7 * r.val) % 16) ∧
  (∀ (s : Fin 4) (j : Fin 16), ∃ i : Fin 64, (stageOf i = s ∧ roundG i = j) ∧
    ∀ i' : Fin 64, stageOf i' = s → roundG i' = j → i' = i)

/-- R111, R112, R113: round 0 and the whole compression of the empty message's padding block, as worked in the spec. -/
def Obligations.WorkedRoundAndCompression : Prop :=
  roundTemp 0 iv (messageWord [(0, 0x80)]) = 0xd76aa4f7 ∧
  roundStep 0 iv (messageWord [(0, 0x80)]) = ⟨0x10325476, 0xa5202774, 0xefcdab89, 0x98badcfe⟩ ∧
  compress iv [(0, 0x80)] = ⟨0xd98c1dd4, 0x04b2008f, 0x980980e9, 0x7e42f8ec⟩

/-- R114, R36: a round-serial sequencer, one round a cycle, a machine beside State and step (entry 13), computes Compress in 66 cycles from COMP_IDLE, and ACC holds
its old value in every cycle before the last: no round-level value is ever in ACC. -/
def Obligations.SequencerComputesCompress : Prop :=
  ∀ (x : Fin 16 → Word) (acc : Acc),
    seqRun x 66 { acc := acc, seq := .compIdle } = { acc := compressWords acc x, seq := .compIdle } ∧
    ∀ n < 66, (seqRun x n { acc := acc, seq := .compIdle }).acc = acc

/-- R52, R55: X[j] is the four bytes at 4j, the first the least significant. -/
def Obligations.MessageWordIsLittleEndian : Prop :=
  ∀ (m : Memory) (j : Fin 16),
    messageWord m j = memRead m (4 * j.val) 4 (by simp only [bufSize]; omega) ∧
    messageWord m j =
      ((readByte m (4 * j.val)).setWidth 32 ||| ((readByte m (4 * j.val + 1)).setWidth 32 <<< 8) |||
        ((readByte m (4 * j.val + 2)).setWidth 32 <<< 16) ||| ((readByte m (4 * j.val + 3)).setWidth 32 <<< 24)) ∧
    ∀ t < 4, (messageWord m j).extractLsb' (8 * t) 8 = readByte m (4 * j.val + t)

/-- R9: MemRead gives back what MemWrite wrote at the same place, byte t of it lies at k + t, and no other byte of the
address space changes; the canonical form is kept. -/
def Obligations.MemReadAfterMemWrite : Prop :=
  ∀ (m : Memory) (k n : Nat) (v : BitVec (8 * n)) (h : k + n ≤ 64), m.wf = true →
    memRead (memWrite m k n v h) k n h = v ∧
    (∀ t < n, readByte (memWrite m k n v h) (k + t) = v.extractLsb' (8 * t) 8) ∧
    (∀ j, j < k ∨ k + n ≤ j → readByte (memWrite m k n v h) j = readByte m j) ∧
    (memWrite m k n v h).wf = true

/-! ### The host's side: rendering and the assembler -/

/-- R167: two characters a byte, high nibble first, from 0123456789abcdef written out; and the spec's example, the digest
of "abc". -/
def Obligations.HexRenderingOfADigest : Prop :=
  (∀ digest : List Byte, (hexRender digest).length = 2 * digest.length ∧
    ∀ k < digest.length,
      (hexRender digest)[2 * k]? =
        ['0', '1', '2', '3', '4', '5', '6', '7', '8', '9', 'a', 'b', 'c', 'd', 'e', 'f'][(digest.getD k 0).toNat / 16]? ∧
      (hexRender digest)[2 * k + 1]? =
        ['0', '1', '2', '3', '4', '5', '6', '7', '8', '9', 'a', 'b', 'c', 'd', 'e', 'f'][(digest.getD k 0).toNat % 16]?) ∧
  digestWord ⟨0x98500190, 0xb04fd23c, 0x7d3f96d6, 0x727fe128⟩ = 0x727fe1287d3f96d6b04fd23c98500190 ∧
  hexRender (digestBytes ⟨0x98500190, 0xb04fd23c, 0x7d3f96d6, 0x727fe128⟩) =
    ['9', '0', '0', '1', '5', '0', '9', '8', '3', 'c', 'd', '2', '4', 'f', 'b', '0',
     'd', '6', '9', '6', '3', 'f', '7', 'd', '2', '8', 'e', '1', '7', 'f', '7', '2']

/-- R77, R78, R168: `.WORD` is the only line that can write an illegal word, and the pseudo-instructions expand to the
commands shown. -/
def Obligations.OnlyDotWordWritesIllegalWords : Prop :=
  (∀ l : AsmLine, (∀ w, l ≠ .word w) → ∀ w ∈ l.words, ∃ i, decode w = .legal i) ∧
  (∀ w : CmdWord, (AsmLine.word w.toNat).wf = true ∧ (AsmLine.word w.toNat).words = [w]) ∧
  (∀ s : List Char, (AsmLine.hash s).words = hashCommands (s.map (fun c => BitVec.ofNat 8 c.toNat))) ∧
  (∀ s : List Char, (AsmLine.hash s).words =
    AsmLine.init.words ++ (AsmLine.updateStr s).words ++ AsmLine.final.words)

/-- R80, R77: the worked encodings, from the text of the lines (lexical points: entry 15). -/
def Obligations.WorkedAssembly : Prop :=
  assembleLine ['H', 'A', 'S', 'H', ' ', '"', 'a', 'b', 'c', '"'] = some [0x1000, 0x2061, 0x2062, 0x2063, 0x3000] ∧
  assembleLine ['H', 'A', 'S', 'H', ' ', '"', '"'] = some [0x1000, 0x3000] ∧
  assembleLine ['h', 'a', 's', 'h', ' ', '"', 'm', 'd', '5', '"', ' ', ';', ' ', 'x'] =
    some [0x1000, 0x206D, 0x2064, 0x2035, 0x3000] ∧
  assembleLine ['U', 'P', 'D', 'A', 'T', 'E', ' ', '\'', 'a', '\''] = some [0x2061] ∧
  assembleLine ['U', 'P', 'D', 'A', 'T', 'E', ' ', '0', 'x', '6', '1'] = some [0x2061] ∧
  assembleLine ['.', 'W', 'O', 'R', 'D', ' ', '0', 'x', '5', '0', '0', '0'] = some [0x5000]

/-! ### Acceptance at the ports -/

/-- R254, R255: after the first reset a presented word is accepted at the edge exactly when the port shows
`cmd_ready` = 1, and is processed by R182's function; with `cmd_ready` = 0 it stays presented and the tuple is left alone.
The tuple is read at the acceptance edge (entry 2). -/
def Obligations.AcceptedExactlyWhenReady : Prop :=
  ∀ (s : State) (w : CmdWord) (rest : List HostMove), s.phase ≠ .unreset → s.host = .command w :: rest →
    ∃ t, step s = .next t ∧
      ((ports s).cmdReady = true → t.host = rest ∧ t.engine = commandStep s.engine w) ∧
      ((ports s).cmdReady = false → t.host = s.host ∧ t.engine = s.engine)

/-- R257 (a draw a cycle, entry 4): no two busy cycles of a run share a draw of the STATUS fields, whether a quiet edge or
a reset edge ends the first: every step out of a busy cycle advances the draw counter, and no step turns it back. -/
def Obligations.EveryBusyCycleDrawsAnew : Prop :=
  ∀ s t : State, step s = .next t →
    s.draws ≤ t.draws ∧ (∀ more before, s.phase = .busy more before → t.draws = s.draws + 1)
end

