-- ==== Sys2Proof/Laws/Decode.lean ====
section
/-! SUPPORT. The fields of a word built by the encoder, and the fields of a word as numbers. -/

namespace Sys2Proof

variable (op : BitVec 4) (data : Byte) (w : CmdWord)

theorem opField_toNat : (opField w).toNat = w.toNat / 4096 := by
  have := w.isLt
  simp [opField, BitVec.extractLsb'_toNat, Nat.shiftRight_eq_div_pow]
  omega

theorem rsvField_toNat : (rsvField w).toNat = w.toNat / 256 % 16 := by
  simp [rsvField, BitVec.extractLsb'_toNat, Nat.shiftRight_eq_div_pow]

theorem dataField_toNat : (dataField w).toNat = w.toNat % 256 := by
  simp [dataField, BitVec.extractLsb'_toNat]

theorem commandWord_toNat : (commandWord op data).toNat = 4096 * op.toNat + data.toNat := by
  have hd := data.isLt
  rw [commandWord, BitVec.toNat_append, ← Nat.shiftLeft_add_eq_or_of_lt hd, BitVec.toNat_append]
  simp [Nat.shiftLeft_eq]
  omega

@[simp] theorem opField_commandWord : opField (commandWord op data) = op := by
  have hd := data.isLt
  apply BitVec.eq_of_toNat_eq
  rw [opField_toNat, commandWord_toNat]
  omega

@[simp] theorem rsvField_commandWord : rsvField (commandWord op data) = 0 := by
  have hd := data.isLt
  apply BitVec.eq_of_toNat_eq
  rw [rsvField_toNat, commandWord_toNat]
  simp
  omega

@[simp] theorem dataField_commandWord : dataField (commandWord op data) = data := by
  have hd := data.isLt
  apply BitVec.eq_of_toNat_eq
  rw [dataField_toNat, commandWord_toNat]
  omega

/-- A word is its three fields. -/
theorem word_eq_of_fields {v w : CmdWord} (ho : opField v = opField w) (hr : rsvField v = rsvField w)
    (hd : dataField v = dataField w) : v = w := by
  apply BitVec.eq_of_toNat_eq
  have h1 := congrArg BitVec.toNat ho
  have h2 := congrArg BitVec.toNat hr
  have h3 := congrArg BitVec.toNat hd
  rw [opField_toNat, opField_toNat] at h1
  rw [rsvField_toNat, rsvField_toNat] at h2
  rw [dataField_toNat, dataField_toNat] at h3
  omega

end Sys2Proof
end

