-- ==== Sys2Proof/Laws/Memory.lean ====
section
/-! SUPPORT. The laws of the block buffer: every operation keeps the canonical form, a read after a write gives the value
written, and a write leaves every other byte alone. -/

namespace Sys2Proof.Machine

theorem wfFrom_cons {lo k : Nat} {v : Byte} {m : Memory} :
    Memory.wfFrom lo ((k, v) :: m) = true ↔ lo ≤ k ∧ k < 64 ∧ v ≠ 0 ∧ Memory.wfFrom (k + 1) m = true := by
  simp only [Memory.wfFrom, Bool.and_eq_true, decide_eq_true_eq, and_assoc]
  exact Iff.rfl

theorem wfFrom_mono {lo lo' : Nat} {m : Memory} (h : Memory.wfFrom lo m = true) (hl : lo' ≤ lo) :
    Memory.wfFrom lo' m = true := by
  cases m with
  | nil => rfl
  | cons c m =>
    obtain ⟨k, v⟩ := c
    rw [wfFrom_cons] at h ⊢
    exact ⟨hl.trans h.1, h.2⟩

/-- No cell lies below the bound of the canonical form. -/
theorem readByte_below {lo k : Nat} {m : Memory} (h : Memory.wfFrom lo m = true) (hk : k < lo) : readByte m k = 0 := by
  induction m generalizing lo with
  | nil => rfl
  | cons c m ih =>
    obtain ⟨a, u⟩ := c
    rw [wfFrom_cons] at h
    rw [readByte, if_neg (by omega)]
    exact ih h.2.2.2 (by omega)

/-- Nor outside the address space (R50). -/
theorem readByte_outside {lo k : Nat} {m : Memory} (h : Memory.wfFrom lo m = true) (hk : 64 ≤ k) : readByte m k = 0 := by
  induction m generalizing lo with
  | nil => rfl
  | cons c m ih =>
    obtain ⟨a, u⟩ := c
    rw [wfFrom_cons] at h
    rw [readByte, if_neg (by omega)]
    exact ih h.2.2.2

theorem writeByte_wfFrom {lo k : Nat} {m : Memory} (v : Byte) (h : Memory.wfFrom lo m = true) (hlo : lo ≤ k)
    (hk : k < 64) : Memory.wfFrom lo (writeByte m k v) = true := by
  induction m generalizing lo with
  | nil =>
    rw [writeByte]
    split
    · rfl
    · rename_i hv
      exact wfFrom_cons.mpr ⟨hlo, hk, hv, rfl⟩
  | cons c m ih =>
    obtain ⟨a, u⟩ := c
    have h' := wfFrom_cons.mp h
    rw [writeByte]
    split
    · split
      · exact h
      · rename_i hka hv
        exact wfFrom_cons.mpr ⟨hlo, hk, hv, wfFrom_cons.mpr ⟨by omega, h'.2⟩⟩
    · split
      · split
        · exact wfFrom_mono h'.2.2.2 (by omega)
        · rename_i hka hv
          exact wfFrom_cons.mpr ⟨hlo, hk, hv, by subst hka; exact h'.2.2.2⟩
      · exact wfFrom_cons.mpr ⟨h'.1, h'.2.1, h'.2.2.1, ih h'.2.2.2 (by omega)⟩

/-- A read after a write: the value written there, every other byte as before. -/
theorem readByte_writeByte {lo k : Nat} {m : Memory} (v : Byte) (h : Memory.wfFrom lo m = true) (j : Nat) :
    readByte (writeByte m k v) j = if j = k then v else readByte m j := by
  induction m generalizing lo with
  | nil =>
    rw [writeByte]
    split
    · rename_i hv
      subst hv
      simp [readByte]
    · rfl
  | cons c m ih =>
    obtain ⟨a, u⟩ := c
    have h' := wfFrom_cons.mp h
    rw [writeByte]
    split
    · rename_i hka
      split
      · rename_i hv
        split
        · rename_i hj
          subst hj
          rw [readByte_below (wfFrom_mono h (le_refl lo) |> fun _ => wfFrom_cons.mpr ⟨le_refl a, h'.2⟩) hka]
          exact hv.symm
        · rfl
      · rfl
    · split
      · rename_i hka
        subst hka
        split
        · rename_i hv
          split
          · rename_i hj
            subst hj
            rw [readByte_below h'.2.2.2 (by omega)]
            exact hv.symm
          · rename_i hj
            rw [readByte, if_neg hj]
        · by_cases hj : j = k
          · simp [readByte, hj]
          · simp [readByte, hj]
      · rename_i hlt hne
        rw [readByte, ih h'.2.2.2]
        by_cases hja : j = a
        · subst hja
          simp [readByte, Ne.symm hne]
        · simp [readByte, hja]

/-- Canonical buffers with the same bytes are the same list. -/
theorem memory_ext_from {lo : Nat} {m m' : Memory} (h : Memory.wfFrom lo m = true) (h' : Memory.wfFrom lo m' = true)
    (hr : ∀ k, readByte m k = readByte m' k) : m = m' := by
  induction m generalizing lo m' with
  | nil =>
    cases m' with
    | nil => rfl
    | cons c m' =>
      obtain ⟨a, u⟩ := c
      have := hr a
      simp [readByte, resetByte] at this
      exact absurd this.symm (wfFrom_cons.mp h').2.2.1
  | cons c m ih =>
    obtain ⟨a, u⟩ := c
    have hc := wfFrom_cons.mp h
    cases m' with
    | nil =>
      have := hr a
      simp [readByte, resetByte] at this
      exact absurd this hc.2.2.1
    | cons c' m' =>
      obtain ⟨a', u'⟩ := c'
      have hc' := wfFrom_cons.mp h'
      have haa : a = a' := by
        rcases Nat.lt_trichotomy a a' with hlt | heq | hgt
        · have := hr a
          rw [readByte, if_pos rfl, readByte_below (wfFrom_cons.mpr ⟨le_refl a', hc'.2⟩) hlt] at this
          exact absurd this hc.2.2.1
        · exact heq
        · have := hr a'
          rw [readByte_below (wfFrom_cons.mpr ⟨le_refl a, hc.2⟩) hgt, readByte, if_pos rfl] at this
          exact absurd this.symm hc'.2.2.1
      subst haa
      have hu : u = u' := by simpa [readByte] using hr a
      subst hu
      congr 1
      refine ih hc.2.2.2 hc'.2.2.2 (fun k => ?_)
      by_cases hk : k = a
      · subst hk
        rw [readByte_below hc.2.2.2 (by omega), readByte_below hc'.2.2.2 (by omega)]
      · simpa [readByte, hk] using hr k

theorem memory_ext {m m' : Memory} (h : m.wf = true) (h' : m'.wf = true) (hr : ∀ k, readByte m k = readByte m' k) :
    m = m' := memory_ext_from h h' hr

theorem writeByte_wf {k : Nat} {m : Memory} (v : Byte) (h : m.wf = true) (hk : k < 64) : (writeByte m k v).wf = true :=
  writeByte_wfFrom v h (Nat.zero_le k) hk

theorem writeBytes_wf {k : Nat} {m : Memory} {bs : List Byte} (h : m.wf = true) (hk : k + bs.length ≤ 64) :
    (writeBytes m k bs).wf = true := by
  induction bs generalizing m k with
  | nil => exact h
  | cons b bs ih =>
    rw [List.length_cons] at hk
    exact ih (writeByte_wf b h (by omega)) (by omega)

theorem readByte_writeBytes {k : Nat} {m : Memory} {bs : List Byte} (h : m.wf = true) (hk : k + bs.length ≤ 64) (j : Nat) :
    readByte (writeBytes m k bs) j = if k ≤ j ∧ j < k + bs.length then bs.getD (j - k) 0 else readByte m j := by
  induction bs generalizing m k with
  | nil => simp [writeBytes]
  | cons b bs ih =>
    rw [List.length_cons] at hk ⊢
    rw [writeBytes, ih (writeByte_wf b h (by omega)) (by omega), readByte_writeByte b h]
    by_cases hjk : j = k
    · subst hjk; simp
    · by_cases hr : k + 1 ≤ j ∧ j < k + 1 + bs.length
      · have hr' : k ≤ j ∧ j < k + (bs.length + 1) := by omega
        have hs : j - k = (j - (k + 1)) + 1 := by omega
        rw [if_pos hr, if_pos hr', hs, List.getD_cons_succ]
      · have hr' : ¬ (k ≤ j ∧ j < k + (bs.length + 1)) := by omega
        rw [if_neg hr, if_neg hr', if_neg hjk]

@[simp] theorem bytesOf_length (n : Nat) (v : BitVec (8 * n)) : (bytesOf n v).length = n := by simp [bytesOf]

theorem bytesOf_getD {n t : Nat} (v : BitVec (8 * n)) (ht : t < n) : (bytesOf n v).getD t 0 = v.extractLsb' (8 * t) 8 := by
  simp [bytesOf, List.getD_eq_getElem?_getD, ht]

theorem memWrite_wf {m : Memory} {k n : Nat} (v : BitVec (8 * n)) (hk : k + n ≤ bufSize) (h : m.wf = true) :
    (memWrite m k n v hk).wf = true :=
  writeBytes_wf h (by rw [bytesOf_length]; exact hk)

/-- R9: what MemWrite(k, n, v) writes, and that it writes nothing else. -/
theorem readByte_memWrite {m : Memory} {k n : Nat} (v : BitVec (8 * n)) (hk : k + n ≤ bufSize) (h : m.wf = true) (j : Nat) :
    readByte (memWrite m k n v hk) j = if k ≤ j ∧ j < k + n then v.extractLsb' (8 * (j - k)) 8 else readByte m j := by
  rw [memWrite, readByte_writeBytes h (by rw [bytesOf_length]; exact hk), bytesOf_length]
  split
  · rename_i hj
    exact bytesOf_getD v (by omega)
  · rfl

/-- MemWrite(k, 1, v) writes one byte. -/
theorem memWrite_one (m : Memory) (k : Nat) (v : Byte) (hk : k + 1 ≤ bufSize) : memWrite m k 1 v hk = writeByte m k v := by
  have : bytesOf 1 v = [v] := by simp [bytesOf, List.range_succ, List.range_zero]
  rw [memWrite, this]
  rfl

theorem zeroRange_wf {m : Memory} {lo hi : Nat} (hh : hi ≤ bufSize) (h : m.wf = true) : (zeroRange m lo hi hh).wf = true := by
  induction hi with
  | zero => exact h
  | succ hi ih =>
    rw [zeroRange]
    split
    · exact memWrite_wf _ _ (ih _)
    · exact ih _

theorem readByte_zeroRange {m : Memory} {lo hi : Nat} (hh : hi ≤ bufSize) (h : m.wf = true) (j : Nat) :
    readByte (zeroRange m lo hi hh) j = if lo ≤ j ∧ j < hi then 0 else readByte m j := by
  induction hi with
  | zero => simp [zeroRange]
  | succ hi ih =>
    rw [zeroRange]
    split
    · rename_i hl
      rw [memWrite_one, readByte_writeByte _ (zeroRange_wf _ h), ih]
      by_cases hj : j = hi
      · rw [if_pos hj, if_pos (by omega)]
      · rw [if_neg hj]
        exact if_congr (by omega) rfl rfl
    · rename_i hl
      rw [ih]
      exact if_congr (by omega) rfl rfl

theorem readBytes_length (m : Memory) (k n : Nat) : (readBytes m k n).length = n := by simp [readBytes]

theorem readBytes_getD {m : Memory} {k n t : Nat} (ht : t < n) : (readBytes m k n).getD t 0 = readByte m (k + t) := by
  simp [readBytes, List.getD_eq_getElem?_getD, ht]

/-- Byte t of a little-endian number is its t-th listed byte. -/
theorem littleEndian_byte (bs : List Byte) (t : Nat) : littleEndian bs / 256 ^ t % 256 = (bs.getD t 0).toNat := by
  induction bs generalizing t with
  | nil => simp [littleEndian]
  | cons b bs ih =>
    have hb := b.isLt
    cases t with
    | zero => simp [littleEndian]; omega
    | succ t =>
      rw [littleEndian, List.getD_cons_succ, ← ih t, Nat.pow_succ, Nat.mul_comm (256 ^ t), ← Nat.div_div_eq_div_mul]
      congr 2
      omega

theorem littleEndian_lt (bs : List Byte) : littleEndian bs < 256 ^ bs.length := by
  induction bs with
  | nil => simp [littleEndian]
  | cons b bs ih =>
    have hb := b.isLt
    rw [littleEndian, List.length_cons, Nat.pow_succ]
    omega

end Sys2Proof.Machine
end

