-- ==== Sys2Proof/Laws/Flags.lean ====
section
/-! SUPPORT. The fields of the STATUS word (R33), the bytes of the digest word (R29), and the ports of each phase. -/

namespace Sys2Proof.Machine

section StatusWord

variable (v b : Bool) (f : Shown)

theorem statusWord_valid : (statusWord v b f).getLsbD 2 = v := by
  unfold statusWord
  rw [BitVec.getLsbD_append, BitVec.getLsbD_append]
  cases v <;> rfl

theorem statusWord_busy : (statusWord v b f).getLsbD 3 = b := by
  unfold statusWord
  rw [BitVec.getLsbD_append, BitVec.getLsbD_append, BitVec.getLsbD_append]
  cases b <;> rfl

/-- The same two bits in simp's spelling of a bit. -/
@[simp] theorem statusWord_valid_bit : (statusWord v b f)[2] = v := statusWord_valid v b f
@[simp] theorem statusWord_busy_bit : (statusWord v b f)[3] = b := statusWord_busy v b f

@[simp] theorem statusWord_st : (statusWord v b f).extractLsb' 0 2 = f.st.bits := by
  ext i hi
  unfold statusWord
  simp only [BitVec.getElem_extractLsb']
  rw [BitVec.getLsbD_append]
  simp [hi]

@[simp] theorem statusWord_fcode : (statusWord v b f).extractLsb' 4 4 = f.fcode := by
  ext i hi
  unfold statusWord
  simp only [BitVec.getElem_extractLsb']
  repeat rw [BitVec.getLsbD_append]
  interval_cases i <;> simp

@[simp] theorem statusWord_nbuf : (statusWord v b f).extractLsb' 8 6 = f.nbuf := by
  ext i hi
  unfold statusWord
  simp only [BitVec.getElem_extractLsb']
  repeat rw [BitVec.getLsbD_append]
  interval_cases i <;> simp

@[simp] theorem statusWord_reserved : (statusWord v b f).extractLsb' 14 2 = 0 := by
  ext i hi
  unfold statusWord
  simp only [BitVec.getElem_extractLsb']
  repeat rw [BitVec.getLsbD_append]
  interval_cases i <;> simp

@[simp] theorem statusWord_fcmd : (statusWord v b f).extractLsb' 16 16 = f.fcmd := by
  ext i hi
  unfold statusWord
  simp only [BitVec.getElem_extractLsb']
  repeat rw [BitVec.getLsbD_append]
  interval_cases i <;> simp

end StatusWord

/-- Byte n of the digest word is Dg[n]. -/
theorem digestWord_byte (r : Acc) (n : Fin 16) : (digestWord r).extractLsb' (8 * n.val) 8 = digestByte r n := by
  apply BitVec.eq_of_toNat_eq
  have hl : littleEndian (digestBytes r) < 2 ^ 128 := by
    have := littleEndian_lt (digestBytes r)
    simpa [digestBytes] using this
  rw [BitVec.extractLsb'_toNat, digestWord, BitVec.toNat_ofNat, Nat.mod_eq_of_lt hl, Nat.shiftRight_eq_div_pow, pow_mul,
    show (2 : Nat) ^ 8 = 256 from rfl, littleEndian_byte]
  simp [digestBytes, List.getD_eq_getElem?_getD]

section Ports

variable {s : State}

theorem rstHigh_nil (h : s.host = []) : rstHigh s = false := by simp only [rstHigh, h]
theorem rstHigh_idle {rest : List HostMove} (h : s.host = .idle :: rest) : rstHigh s = false := by simp only [rstHigh, h]
theorem rstHigh_command {w : CmdWord} {rest : List HostMove} (h : s.host = .command w :: rest) : rstHigh s = false := by
  simp only [rstHigh, h]
theorem rstHigh_reset {rest : List HostMove} (h : s.host = .reset :: rest) : rstHigh s = true := by simp only [rstHigh, h]

/-- A host that never resets holds rst at 0. -/
theorem rstHigh_of_no_reset (h : ∀ m ∈ s.host, m ≠ .reset) : rstHigh s = false := by
  cases hh : s.host with
  | nil => exact rstHigh_nil hh
  | cons m rest =>
    cases m with
    | reset => exact absurd rfl (h .reset (by simp [hh]))
    | idle => exact rstHigh_idle hh
    | command w => exact rstHigh_command hh

theorem ports_rst (r : rstHigh s = true) : ports s = { cmdReady := false, status := 0x00000008, digest := 0 } := by
  rw [ports, if_pos r]; rfl
theorem ports_unreset (r : rstHigh s = false) (h : s.phase = .unreset) : ports s = Config.portsBeforeReset s.draws := by
  simp [ports, r, h]
theorem ports_ready (r : rstHigh s = false) (h : s.phase = .ready) : ports s = readyPorts s.engine := by
  simp [ports, r, h]
theorem ports_busy {more : Nat} {before : Shown} (r : rstHigh s = false) (h : s.phase = .busy more before) :
    ports s = busyPorts (drawShown s.draws before (shown s.engine)) := by
  simp [ports, r, h]

end Ports

end Sys2Proof.Machine
end

