-- ==== Sys2Proof/Laws/State.lean ====
section
/-! SUPPORT. The small lemmas of the state record and of the updates the model makes of it: one per field per update,
true by rfl. -/

namespace Sys2Proof.Machine

section WithEngine

variable (s : State) (e : Engine)

@[simp] theorem withEngine_engine : (s.withEngine e).engine = e := rfl
@[simp] theorem withEngine_phase : (s.withEngine e).phase = s.phase := rfl
@[simp] theorem withEngine_host : (s.withEngine e).host = s.host := rfl
@[simp] theorem withEngine_lat : (s.withEngine e).lat = s.lat := rfl
@[simp] theorem withEngine_draws : (s.withEngine e).draws = s.draws := rfl
@[simp] theorem withEngine_self : s.withEngine s.engine = s := rfl

end WithEngine

section HoldBusy

variable (n : Nat) (b : Shown) (s : State)

@[simp] theorem holdBusy_engine : (holdBusy n b s).engine = s.engine := rfl
@[simp] theorem holdBusy_phase : (holdBusy n b s).phase = busyFor n b := rfl
@[simp] theorem holdBusy_host : (holdBusy n b s).host = s.host := rfl
@[simp] theorem holdBusy_lat : (holdBusy n b s).lat = s.lat := rfl
@[simp] theorem holdBusy_draws : (holdBusy n b s).draws = s.draws := rfl

end HoldBusy

section ResetEdge

variable (s : State)

@[simp] theorem resetEdge_engine : (resetEdge s).engine = Engine.reset := rfl
@[simp] theorem resetEdge_phase : (resetEdge s).phase = .ready := rfl
@[simp] theorem resetEdge_host : (resetEdge s).host = s.host := rfl
@[simp] theorem resetEdge_lat : (resetEdge s).lat = s.lat := rfl
@[simp] theorem resetEdge_draws : (resetEdge s).draws = s.draws + 1 := rfl

end ResetEdge

section PresentNext

variable (w : CmdWord) (s : State)

@[simp] theorem presentNext_engine : (presentNext w s).engine = s.engine := rfl
@[simp] theorem presentNext_phase : (presentNext w s).phase = .ready := rfl
@[simp] theorem presentNext_host : (presentNext w s).host = .command w :: s.host := rfl
@[simp] theorem presentNext_lat : (presentNext w s).lat = s.lat := rfl
@[simp] theorem presentNext_draws : (presentNext w s).draws = s.draws := rfl

end PresentNext

section FaultEntry

variable (c : FaultCode) (w : CmdWord) (e : Engine)

@[simp] theorem faultEntry_acc : (faultEntry c w e).acc = e.acc := rfl
@[simp] theorem faultEntry_buf : (faultEntry c w e).buf = e.buf := rfl
@[simp] theorem faultEntry_nbuf : (faultEntry c w e).nbuf = e.nbuf := rfl
@[simp] theorem faultEntry_len : (faultEntry c w e).len = e.len := rfl
@[simp] theorem faultEntry_st : (faultEntry c w e).st = .fault := rfl
@[simp] theorem faultEntry_fcode : (faultEntry c w e).fcode = c.bits := rfl
@[simp] theorem faultEntry_fcmd : (faultEntry c w e).fcmd = w := rfl

end FaultEntry

section AbandonOperation

variable (e : Engine)

@[simp] theorem abandonOperation_acc : (abandonOperation e).acc = e.acc := rfl
@[simp] theorem abandonOperation_buf : (abandonOperation e).buf = e.buf := rfl
@[simp] theorem abandonOperation_nbuf : (abandonOperation e).nbuf = 0 := rfl
@[simp] theorem abandonOperation_len : (abandonOperation e).len = e.len := rfl
@[simp] theorem abandonOperation_st : (abandonOperation e).st = .idle := rfl
@[simp] theorem abandonOperation_fcode : (abandonOperation e).fcode = e.fcode := rfl
@[simp] theorem abandonOperation_fcmd : (abandonOperation e).fcmd = e.fcmd := rfl

end AbandonOperation

section FreshOperation

@[simp] theorem freshOperation_acc : freshOperation.acc = iv := rfl
@[simp] theorem freshOperation_buf : freshOperation.buf = [] := rfl
@[simp] theorem freshOperation_nbuf : freshOperation.nbuf = 0 := rfl
@[simp] theorem freshOperation_len : freshOperation.len = 0 := rfl
@[simp] theorem freshOperation_st : freshOperation.st = .absorb := rfl
@[simp] theorem freshOperation_fcode : freshOperation.fcode = 0 := rfl
@[simp] theorem freshOperation_fcmd : freshOperation.fcmd = 0 := rfl

end FreshOperation

section EngineReset

@[simp] theorem engineReset_acc : Engine.reset.acc = iv := rfl
@[simp] theorem engineReset_buf : Engine.reset.buf = [] := rfl
@[simp] theorem engineReset_nbuf : Engine.reset.nbuf = 0 := rfl
@[simp] theorem engineReset_len : Engine.reset.len = 0 := rfl
@[simp] theorem engineReset_st : Engine.reset.st = .idle := rfl
@[simp] theorem engineReset_fcode : Engine.reset.fcode = 0 := rfl
@[simp] theorem engineReset_fcmd : Engine.reset.fcmd = 0 := rfl

end EngineReset

section Shown

variable (e : Engine)

@[simp] theorem shown_st : (shown e).st = e.st := rfl
@[simp] theorem shown_nbuf : (shown e).nbuf = e.nbuf := rfl
@[simp] theorem shown_fcode : (shown e).fcode = e.fcode := rfl
@[simp] theorem shown_fcmd : (shown e).fcmd = e.fcmd := rfl

end Shown

end Sys2Proof.Machine
end

