-- ==== Sys2Proof/Laws/Ops.lean ====
section
/-! SUPPORT. One lemma per shared operation that says what it does: the buffer writes of UPDATE and FINAL, the two cases
of absorbing a byte and of finishing a message, the quiet edge, what a meaning can change, and what a step can do. -/

namespace Sys2Proof.Machine

section Buffer

variable {e : Engine}

theorem writeAtNbuf_wf (v : Byte) (h : e.buf.wf = true) : (writeAtNbuf e v).wf = true := memWrite_wf _ _ h

theorem readByte_writeAtNbuf (v : Byte) (h : e.buf.wf = true) (j : Nat) :
    readByte (writeAtNbuf e v) j = if j = e.nbuf.toNat then v else readByte e.buf j := by
  rw [writeAtNbuf, memWrite_one, readByte_writeByte v h]

theorem padMark_wf (h : e.buf.wf = true) : (padMark e).wf = true := zeroRange_wf _ (writeAtNbuf_wf _ h)

/-- R162, R163: message bytes below rem, 0x80 at rem, zeros above. -/
theorem readByte_padMark (h : e.buf.wf = true) {j : Nat} (hj : j < 64) :
    readByte (padMark e) j =
      if j < e.nbuf.toNat then readByte e.buf j else if j = e.nbuf.toNat then 0x80 else 0 := by
  rw [padMark, readByte_zeroRange _ (writeAtNbuf_wf _ h), readByte_writeAtNbuf _ h]
  by_cases h1 : j < e.nbuf.toNat
  · rw [if_neg (by omega), if_neg (by omega), if_pos h1]
  · by_cases h2 : j = e.nbuf.toNat
    · rw [if_neg (by omega), if_pos h2, if_neg h1, if_pos h2]
    · rw [if_pos (by omega), if_neg h1, if_neg h2]

theorem writeLength_wf {m : Memory} (v : BitVec 64) (h : m.wf = true) : (writeLength m v).wf = true := memWrite_wf _ _ h

/-- R53: the length field lies at 56..63, little-endian. -/
theorem readByte_writeLength {m : Memory} (v : BitVec 64) (h : m.wf = true) {j : Nat} (hj : j < 64) :
    readByte (writeLength m v) j = if j < 56 then readByte m j else v.extractLsb' (8 * (j - 56)) 8 := by
  rw [writeLength, readByte_memWrite _ _ h]
  by_cases h1 : j < 56
  · rw [if_neg (by omega), if_pos h1]
  · rw [if_pos (by omega), if_neg h1]

theorem lengthBlock_wf {m : Memory} (v : BitVec 64) (h : m.wf = true) : (lengthBlock m v).wf = true :=
  writeLength_wf v (zeroRange_wf _ h)

/-- R163: the second block. -/
theorem readByte_lengthBlock {m : Memory} (v : BitVec 64) (h : m.wf = true) {j : Nat} (hj : j < 64) :
    readByte (lengthBlock m v) j = if j < 56 then 0 else v.extractLsb' (8 * (j - 56)) 8 := by
  rw [lengthBlock, readByte_writeLength v (zeroRange_wf _ h) hj, readByte_zeroRange _ h]
  by_cases h1 : j < 56
  · rw [if_pos h1, if_pos (by omega), if_pos h1]
  · rw [if_neg h1, if_neg h1]

end Buffer

section Absorb

variable (data : Byte) {e : Engine}

theorem absorbByte_below (h : e.nbuf.toNat + 1 ≠ 64) :
    absorbByte data e = { e with buf := writeAtNbuf e data, nbuf := BitVec.ofNat 6 (e.nbuf.toNat + 1) } := by
  rw [absorbByte, if_neg h]

theorem absorbByte_fills (h : e.nbuf.toNat + 1 = 64) :
    absorbByte data e = { e with buf := writeAtNbuf e data, acc := compress e.acc (writeAtNbuf e data),
                                 len := e.len + 64, nbuf := 0 } := by
  rw [absorbByte, if_pos h]

theorem absorbByte_wf (h : e.buf.wf = true) : (absorbByte data e).buf.wf = true := by
  rw [absorbByte]
  split <;> exact writeAtNbuf_wf data h

@[simp] theorem absorbByte_st : (absorbByte data e).st = e.st := by rw [absorbByte]; split <;> rfl
@[simp] theorem absorbByte_fcode : (absorbByte data e).fcode = e.fcode := by rw [absorbByte]; split <;> rfl
@[simp] theorem absorbByte_fcmd : (absorbByte data e).fcmd = e.fcmd := by rw [absorbByte]; split <;> rfl

end Absorb

section Finish

variable {e : Engine}

theorem finishMessage_single (h : e.nbuf.toNat < 56) :
    finishMessage e = { e with buf := writeLength (padMark e) (bitLength e),
                               acc := compress e.acc (writeLength (padMark e) (bitLength e)), nbuf := 0, st := .done } := by
  rw [finishMessage, if_pos h]

theorem finishMessage_double (h : ¬ e.nbuf.toNat < 56) :
    finishMessage e = { e with buf := lengthBlock (padMark e) (bitLength e),
                               acc := compress (compress e.acc (padMark e)) (lengthBlock (padMark e) (bitLength e)),
                               nbuf := 0, st := .done } := by
  rw [finishMessage, if_neg h]

theorem finishMessage_wf (h : e.buf.wf = true) : (finishMessage e).buf.wf = true := by
  by_cases hr : e.nbuf.toNat < 56
  · rw [finishMessage_single hr]
    exact writeLength_wf _ (padMark_wf h)
  · rw [finishMessage_double hr]
    dsimp only
    exact lengthBlock_wf _ (padMark_wf h)

@[simp] theorem finishMessage_st : (finishMessage e).st = .done := by rw [finishMessage]; split <;> rfl
@[simp] theorem finishMessage_nbuf : (finishMessage e).nbuf = 0 := by rw [finishMessage]; split <;> rfl
@[simp] theorem finishMessage_len : (finishMessage e).len = e.len := by rw [finishMessage]; split <;> rfl
@[simp] theorem finishMessage_fcode : (finishMessage e).fcode = e.fcode := by rw [finishMessage]; split <;> rfl
@[simp] theorem finishMessage_fcmd : (finishMessage e).fcmd = e.fcmd := by rw [finishMessage]; split <;> rfl

end Finish

section QuietEdge

variable (s : State)

@[simp] theorem quietEdge_engine : (quietEdge s).engine = s.engine := by rw [quietEdge]; split <;> rfl
@[simp] theorem quietEdge_host : (quietEdge s).host = s.host := by rw [quietEdge]; split <;> rfl
@[simp] theorem quietEdge_lat : (quietEdge s).lat = s.lat := by rw [quietEdge]; split <;> rfl

theorem quietEdge_unreset {s : State} (h : s.phase = .unreset) : quietEdge s = { s with draws := s.draws + 1 } := by
  simp only [quietEdge, h]

theorem quietEdge_ready {s : State} (h : s.phase = .ready) : quietEdge s = s := by simp only [quietEdge, h]

theorem quietEdge_busy {s : State} {more : Nat} {before : Shown} (h : s.phase = .busy more before) :
    quietEdge s = { s with phase := busyFor more before, draws := s.draws + 1 } := by
  simp only [quietEdge, h]

theorem busyFor_ne_unreset (n : Nat) (b : Shown) : busyFor n b ≠ .unreset := by cases n <;> simp [busyFor]

end QuietEdge

/-- Every command has a meaning that answers a next state and changes the tuple alone. -/
theorem exec_changes_only_engine (i : Instr) (s : State) : ∃ e, exec i s = .next (s.withEngine e) := by
  cases i with
  | init => exact ⟨_, rfl⟩
  | update data =>
    simp only [exec, execUpdate]
    split
    · exact ⟨s.engine, rfl⟩
    · exact ⟨_, rfl⟩
    · exact ⟨_, rfl⟩
    · exact ⟨_, rfl⟩
  | final =>
    simp only [exec, execFinal]
    split
    · exact ⟨s.engine, rfl⟩
    · exact ⟨_, rfl⟩
    · exact ⟨_, rfl⟩
    · exact ⟨_, rfl⟩
  | abort =>
    simp only [exec, execAbort]
    split
    · exact ⟨s.engine, rfl⟩
    · exact ⟨_, rfl⟩
    · exact ⟨_, rfl⟩
    · exact ⟨_, rfl⟩

/-- Accepting a word answers a next state: some tuple, and `cmd_ready` low for the word's latency. -/
theorem acceptWord_next (w : CmdWord) (s : State) :
    ∃ e, acceptWord w s = .next (holdBusy (latencyOf s.lat s.engine w) (shown s.engine) (s.withEngine e)) := by
  unfold acceptWord
  cases decode w with
  | illegal code =>
    dsimp only
    rw [illegalWord]
    split
    · exact ⟨s.engine, rfl⟩
    · exact ⟨_, rfl⟩
  | legal i =>
    obtain ⟨e, he⟩ := exec_changes_only_engine i s
    exact ⟨e, by simp only [he]⟩

/-- What R182's function can do with a word. -/
theorem commandStep_cases (e : Engine) (w : CmdWord) :
    (e.st = .fault ∧ w ≠ 0x1000 ∧ commandStep e w = e) ∨
    ((w = 0x1000 ∨ decode w = .legal .init) ∧ commandStep e w = freshOperation) ∨
    (e.st ≠ .fault ∧ ∃ code, commandStep e w = faultEntry code w e) ∨
    (e.st ≠ .fault ∧ decode w = .legal .abort ∧ commandStep e w = abandonOperation e) ∨
    (e.st = .absorb ∧ ∃ data, decode w = .legal (.update data) ∧ commandStep e w = absorbByte data e) ∨
    (e.st = .absorb ∧ decode w = .legal .final ∧ commandStep e w = finishMessage e) := by
  by_cases hf : e.st = .fault
  · by_cases hw : w = 0x1000
    · exact .inr (.inl ⟨.inl hw, by rw [commandStep, if_pos hf, if_pos hw]⟩)
    · exact .inl ⟨hf, hw, by rw [commandStep, if_pos hf, if_neg hw]⟩
  · rw [commandStep, if_neg hf]
    cases hd : decode w with
    | illegal code => exact .inr (.inr (.inl ⟨hf, code, rfl⟩))
    | legal i =>
      cases i with
      | init => exact .inr (.inl ⟨.inr rfl, rfl⟩)
      | abort => exact .inr (.inr (.inr (.inl ⟨hf, rfl, rfl⟩)))
      | update data =>
        by_cases ha : e.st = .absorb
        · exact .inr (.inr (.inr (.inr (.inl ⟨ha, data, rfl, if_pos ha⟩))))
        · exact .inr (.inr (.inl ⟨hf, .badState, if_neg ha⟩))
      | final =>
        by_cases ha : e.st = .absorb
        · exact .inr (.inr (.inr (.inr (.inr ⟨ha, rfl, if_pos ha⟩))))
        · exact .inr (.inr (.inl ⟨hf, .badState, if_neg ha⟩))

/-- What a step that answers a next state can be: a quiet edge, a reset edge, or an accepted word. -/
theorem step_next_cases {s t : State} (h : step s = .next t) :
    (s.host = [] ∧ t = quietEdge s) ∨
    (∃ rest, s.host = .idle :: rest ∧ t = quietEdge { s with host := rest }) ∨
    (∃ rest, s.host = .reset :: rest ∧ t = resetEdge { s with host := rest }) ∨
    (∃ w rest more before, s.host = .command w :: rest ∧ s.phase = .busy more before ∧ t = quietEdge s) ∨
    (∃ w rest, s.host = .command w :: rest ∧ s.phase = .ready ∧
      acceptWord w { s with host := rest } = .next t) := by
  unfold step clockEdge at h
  split at h
  · rename_i hh
    exact .inl ⟨hh, by simpa using h.symm⟩
  · rename_i rest hh
    exact .inr (.inl ⟨rest, hh, by simpa using h.symm⟩)
  · rename_i rest hh
    exact .inr (.inr (.inl ⟨rest, hh, by simpa using h.symm⟩))
  · rename_i w rest hh
    unfold presentCommand at h
    split at h
    · exact absurd h (by simp)
    · rename_i more before hp
      exact .inr (.inr (.inr (.inl ⟨w, rest, more, before, hh, hp, by simpa using h.symm⟩)))
    · rename_i hp
      exact .inr (.inr (.inr (.inr ⟨w, rest, hh, hp, h⟩)))

end Sys2Proof.Machine
end

