-- ==== Sys2Proof/Laws/PerInstr.lean ====
section
/-! SUPPORT. Statements about every command as syntax, one lemma per constructor. -/

namespace Sys2Proof.Laws.ReservedZero

/-- R70: RSV is 0000 in every command's word, and the command is well-formed. -/
def Statement (i : Instr) : Prop := rsvField (encode i) = 0 ∧ i.wf = true

theorem init : Statement .init := ⟨rsvField_commandWord _ _, rfl⟩

theorem update (data : Byte) : Statement (.update data) :=
  ⟨rsvField_commandWord _ _, by have := data.isLt; simpa [Instr.wf] using this⟩

theorem final : Statement .final := ⟨rsvField_commandWord _ _, rfl⟩

theorem abort : Statement .abort := ⟨rsvField_commandWord _ _, rfl⟩

end Sys2Proof.Laws.ReservedZero
end

