-- ==== Sys2Proof/Tests/Slice0.lean ====
section
/-! SUPPORT. The model's own tests. Expected values are the spec's (95_test_vectors.md, or the rule named). Witnesses show
that the hypotheses of a statement can be met together. -/

/- One theorem after another: many kernel evaluations at once would ask for more threads than the check allows. -/
set_option Elab.async false

namespace Sys2Proof.Tests

open Sys2Proof Sys2Proof.Machine

/-! ### Small states -/

/-- A machine just after reset, with another tuple and with moves of the host. -/
def machine (e : Engine) (host : List HostMove) : State := { State.reset with engine := e, host := host }

/-- INIT, then n times UPDATE 'a', for n ≤ 63 (R145: ACC = IV until the 64th). -/
def manyA (n : Nat) : Engine :=
  { freshOperation with buf := (List.range n).map (fun k => (k, 0x61)), nbuf := BitVec.ofNat 6 n }

/-- INIT, UPDATE 'a', UPDATE 'b'. -/
def twoBytes : Engine := { freshOperation with buf := [(0, 0x61), (1, 0x62)], nbuf := 2 }

/-- INIT, UPDATE.STR "abc". -/
def threeBytes : Engine := { freshOperation with buf := [(0, 0x61), (1, 0x62), (2, 0x63)], nbuf := 3 }

/-- A tuple in DONE. -/
def finished : Engine := { freshOperation with st := .done }

/-- Reset, then UPDATE 'a'. -/
def faulted : Engine := { Engine.reset with st := .fault, fcode := 3, fcmd := 0x2061 }

/-- Latencies that are not 0. -/
def slow (s : State) : State := { s with lat := ⟨1, 2, 3, 4, 5, 6, 7⟩ }

/-! ### Well-formedness: a term that each check refuses (R77) -/

theorem test_wf_byte : byteInRange 255 = true ∧ byteInRange 256 = false := by decide
theorem test_wf_word : wordInRange 0xFFFF = true ∧ wordInRange 0x10000 = false := by decide
theorem test_wf_ascii : asciiInRange 'a' = true ∧ asciiInRange 'é' = false := by decide
theorem test_wf_line_update : (AsmLine.update 256).wf = false := by decide
theorem test_wf_line_word : (AsmLine.word 0x10000).wf = false := by decide
theorem test_wf_line_str : (AsmLine.updateStr ['é']).wf = false := by decide
theorem test_wf_line_bytes : (AsmLine.updateBytes [0, 256]).wf = false := by decide
theorem test_wf_line_rep : (AsmLine.updateRep 256 2).wf = false := by decide
theorem test_wf_line_hash : (AsmLine.hash ['é']).wf = false := by decide
/-- `Instr.wf` has nothing to refuse: DATA is eight bits wide by its type (R72). -/
theorem test_wf_instr : (Instr.update 0xFF).wf = true := by decide

/-! ### Decoding: words written out from R73, and the rejections of R80 -/

theorem test_decode_init : decode 0b0001000000000000 = .legal .init := by decide +kernel
theorem test_decode_update : decode 0b0010000001100001 = .legal (.update 0x61) := by decide +kernel
theorem test_decode_final : decode 0b0011000000000000 = .legal .final := by decide +kernel
theorem test_decode_abort : decode 0b0100000000000000 = .legal .abort := by decide +kernel
theorem test_decode_zero : decode 0x0000 = .illegal .illegalOpcode := by decide +kernel
theorem test_decode_op5 : decode 0x5000 = .illegal .illegalOpcode := by decide +kernel
theorem test_decode_rsv : decode 0x2161 = .illegal .reservedField := by decide +kernel
theorem test_decode_stray_data :
    decode 0x1001 = .illegal .reservedField ∧ decode 0x3080 = .illegal .reservedField ∧
    decode 0x4001 = .illegal .reservedField := by decide +kernel
theorem test_encode : encode (.update 0x63) = 0x2063 ∧ encode .abort = 0x4000 := by decide +kernel
theorem test_table_word : decodeTableWord 16 0x20FF = some (.update 0xFF) ∧ decodeTableWord 16 0x5000 = none := by
  decide +kernel

/-! ### Primitives: 95_test_vectors.md 2.2, 2.3, 2.5 -/

theorem test_rotl : rotl 0xdeadbeef 23 = 0x77ef56df ∧ rotl 0x80000001 1 = 0x00000003 := by decide +kernel
theorem test_f3_all_zero : f3 0 0 0 = 0xffffffff ∧ f3 0x12345678 0x9abcdef0 0x0f0f0f0f = 0x68482808 := by decide +kernel
theorem test_f0_f1 : f0 0x12345678 0x9abcdef0 0x0f0f0f0f = 0x1f3f5f77 ∧ f1 0x12345678 0x9abcdef0 0x0f0f0f0f = 0x92b4d6f8 := by
  decide +kernel
theorem test_compress_ones :
    compress iv ((List.range 64).map (fun k => (k, 0xff))) = ⟨0x561987b4, 0x493e9151, 0xbdc6554b, 0x015c40df⟩ := by
  decide +kernel
theorem test_compress_wraps :
    compress ⟨0xffffffff, 0xffffffff, 0xffffffff, 0xffffffff⟩ [] = ⟨0xe6bc4a78, 0x6580a066, 0x341c3389, 0xb7b5afcc⟩ := by
  decide +kernel

/-! ### The commands: one step on a small state -/

/-- The tuple and the status after one step. -/
def after (s : State) : Option (Engine × BitVec 32 × BitVec 128) :=
  match step s with
  | .next t => some (t.engine, (ports t).status, (ports t).digest)
  | .fault _ => none
  | .refused _ => none

/-- 2.1: INIT in FAULT. -/
theorem test_init_leaves_fault :
    (after (machine faulted [.command 0x1000])).map (fun r => (r.1.st, r.1.fcode, r.2.1)) =
      some (.absorb, 0, 0x00000001) := by decide +kernel

/-- 2.9: UPDATE 'c' after "ab". -/
theorem test_update_third_byte :
    (after (machine twoBytes [.command 0x2063])).map (fun r => (r.1.buf, r.1.acc, r.2.1)) =
      some ([(0, 0x61), (1, 0x62), (2, 0x63)], iv, 0x00000301) := by decide +kernel

/-- R145, P4: the 64th 'a' compresses. -/
theorem test_update_fills_block :
    (after (machine (manyA 63) [.command 0x2061])).map (fun r => (r.1.acc, r.1.len, r.1.nbuf)) =
      some (⟨0x89d4ff56, 0x125cd962, 0x69cade33, 0x0033e325⟩, 64, 0) := by decide +kernel

/-- P2: FINAL after "abc". -/
theorem test_final_abc :
    (after (machine threeBytes [.command 0x3000])).map (fun r => (r.2.1, r.2.2)) =
      some (0x00000006, 0x727fe1287d3f96d6b04fd23c98500190) := by decide +kernel

/-- P3: 56 bytes, the first two-block case; 2.7: its second padding block. -/
theorem test_final_two_blocks :
    (after (machine (manyA 56) [.command 0x3000])).map (fun r => (r.1.acc, r.1.buf)) =
      some (⟨0xc78a0c3b, 0xb028f803, 0x70196c4c, 0x1872d106⟩, [(56, 0xc0), (57, 0x01)]) := by decide +kernel

/-- 2.1: ABORT in ABSORB. -/
theorem test_abort_in_absorb :
    (after (machine twoBytes [.command 0x4000])).map (fun r => (r.1.st, r.1.acc, r.2.1)) =
      some (.idle, iv, 0x00000000) := by decide +kernel

/-- 2.1: UPDATE in DONE, FINAL in IDLE. -/
theorem test_bad_state :
    (after (machine finished [.command 0x2061])).map (fun r => r.2.1) = some 0x20610033 ∧
    (after (machine Engine.reset [.command 0x3000])).map (fun r => r.2.1) = some 0x30000033 := by decide +kernel

/-- 2.1, R226: 0x2161 in IDLE raises RESERVED_FIELD, 0x5000 in DONE raises ILLEGAL_OPCODE. -/
theorem test_fault_priority :
    (after (machine Engine.reset [.command 0x2161])).map (fun r => r.2.1) = some 0x21610023 ∧
    (after (machine finished [.command 0x5000])).map (fun r => r.2.1) = some 0x50000013 := by decide +kernel

/-- 2.1: a word in FAULT is ignored, the first fault is kept. -/
theorem test_fault_is_sticky :
    (after (machine faulted [.command 0x0000])).map (fun r => r.2.1) = some 0x20610033 ∧
    (after (machine faulted [.command 0x4000])).map (fun r => r.2.1) = some 0x20610033 := by decide +kernel

/-- R250, R38: reset in FAULT, and in the middle of a command; rst still high in the next cycle, and rst low in it. -/
theorem test_reset :
    after (machine faulted [.reset, .reset]) = some (Engine.reset, 0x00000008, 0) ∧
    after { machine threeBytes [.reset, .command 0x1000] with phase := .busy 5 (shown twoBytes) } =
      some (Engine.reset, 0x00000000, 0) := by decide +kernel

/-- R38: the ports while rst = 1, in DONE. -/
theorem test_ports_in_reset :
    ports (machine finished [.reset]) = { cmdReady := false, status := 0x00000008, digest := 0 } := by decide +kernel

/-- R256: a latency of 4 keeps `cmd_ready` low for 4 cycles. -/
theorem test_latency :
    (match step (slow (machine threeBytes [.command 0x3000])) with
      | .next t => t.phase
      | .fault _ => .unreset
      | .refused _ => .unreset) = .busy 3 (shown threeBytes) := by decide +kernel

theorem test_fetch_word :
    step (State.reset.withFetchWord 16 0x1000) = exec .init State.reset := by rfl

/-! ### The assembler (R77, R78) -/

theorem test_assemble_bytes :
    assembleLine ['u', 'p', 'd', 'a', 't', 'e', '.', 'B', 'Y', 'T', 'E', 'S', ' ', '1', ',', ' ', '0', 'x', 'f', 'F'] =
      some [0x2001, 0x20FF] := by decide +kernel
theorem test_assemble_rep :
    assembleLine ['U', 'P', 'D', 'A', 'T', 'E', '.', 'R', 'E', 'P', ' ', '\'', ';', '\'', ',', '2'] =
      some [0x203B, 0x203B] := by decide +kernel
theorem test_assemble_refuses :
    assembleLine ['U', 'P', 'D', 'A', 'T', 'E', ' ', '2', '5', '6'] = none ∧ assembleLine ['N', 'O', 'P'] = none := by
  decide +kernel
/-- A quoted character without an ASCII byte is refused, and so is a quoted character for a word (entry 15). -/
theorem test_assemble_quoted :
    assembleLine ['U', 'P', 'D', 'A', 'T', 'E', ' ', '\'', 'é', '\''] = none ∧
    assembleLine ['.', 'W', 'O', 'R', 'D', ' ', '\'', 'a', '\''] = none := by decide +kernel
theorem test_assemble_program :
    assemble [['I', 'N', 'I', 'T'], [';'], ['F', 'I', 'N', 'A', 'L', ';', 'x']] = some [0x1000, 0x3000] := by decide +kernel

/-! ### Witnesses: the hypotheses of the statements can be met -/

/-- The first cycle after rst: idle, a malformed word, and in the middle of a command. -/
theorem witness_ResetEdgeRestoresTheTable :
    (machine faulted [.reset, .idle]).host = .reset :: [.idle] ∧
    (machine faulted [.reset, .command 0x5000]).host = .reset :: [.command 0x5000] ∧
    rstHigh (resetEdge (machine faulted [.command 0x5000])) = false ∧
    ({ machine twoBytes [.reset] with phase := .busy 5 (shown twoBytes) } : State).host = [.reset] := ⟨rfl, rfl, rfl, rfl⟩

theorem witness_NoCommandBeforeTheFirstReset :
    ∃ s t u : State, s.phase = .unreset ∧ s.host = [.command 0x1000] ∧ t.phase = .unreset ∧ t.host = [.reset] ∧
      u.phase = .unreset ∧ u.host = [.idle] :=
  ⟨{ machine faulted [.command 0x1000] with phase := .unreset }, { machine faulted [.reset] with phase := .unreset },
    { machine faulted [.idle] with phase := .unreset }, rfl, rfl, rfl, rfl, rfl, rfl⟩

theorem witness_StepRunsTheDecodedCommand :
    (machine twoBytes [.command 0x2063]).phase = .ready ∧ decode 0x2063 = .legal (.update 0x63) := by decide +kernel

theorem witness_StepRunsTheFetchWord : decodeTableWord 16 0x3000 = some .final := by decide +kernel

theorem witness_Presents : Presents (machine twoBytes [.command 0x2063]) 0x2063 [] := ⟨rfl, rfl⟩

/-- A latency of 4 (CompletionAfterTheLatency), and with the next word held (BusyPortsHideTheCommand); a latency of 0. -/
theorem witness_BusyPortsHideTheCommand :
    Presents (slow (machine threeBytes [.command 0x3000])) 0x3000 [] ∧
    Presents (slow (machine threeBytes [.command 0x3000, .idle, .command 0x1000])) 0x3000 [.idle, .command 0x1000] ∧
    (∀ m ∈ [HostMove.idle, .command 0x1000], m ≠ .reset) ∧
    3 < latencyOf ⟨1, 2, 3, 4, 5, 6, 7⟩ threeBytes 0x3000 ∧ latencyOf State.reset.lat threeBytes 0x3000 ≤ 0 :=
  ⟨⟨rfl, rfl⟩, ⟨rfl, rfl⟩, by decide, by decide +kernel, by decide +kernel⟩

theorem witness_InitOpensAFreshOperation :
    (0x1001 : CmdWord).toNat / 4096 = 1 ∧ (0x1001 : CmdWord) ≠ 0x1000 ∧
    (0x1100 : CmdWord).toNat / 4096 = 1 ∧ (machine faulted []).phase = .ready ∧ rstHigh (machine faulted []) = false ∧
    twoBytes.st ≠ .fault ∧ faulted.st = .fault ∧ Instr.abort ≠ .init := by decide +kernel

theorem witness_AbortReturnsToIdle : (machine twoBytes []).engine.st ≠ .fault := by decide

theorem witness_UpdateAppendsOneByte :
    (manyA 62).st = .absorb ∧ (manyA 62).nbuf.toNat < 63 ∧ (manyA 62).buf.wf = true ∧
    freshOperation.nbuf.toNat = 0 := by decide +kernel

theorem witness_UpdateCompletesTheBlock :
    (manyA 63).st = .absorb ∧ (manyA 63).nbuf.toNat = 63 ∧ (manyA 63).buf.wf = true := by decide +kernel

theorem witness_FinalPadsOneBlock :
    (manyA 55).st = .absorb ∧ (manyA 55).nbuf.toNat < 56 ∧ (manyA 55).buf.wf = true := by decide +kernel

theorem witness_FinalPadsTwoBlocks :
    (manyA 56).st = .absorb ∧ 56 ≤ (manyA 56).nbuf.toNat ∧ (manyA 56).buf.wf = true ∧
    (manyA 63).st = .absorb ∧ 56 ≤ (manyA 63).nbuf.toNat ∧ (manyA 63).buf.wf = true ∧ (manyA 63).len.toNat % 64 = 0 := by
  decide +kernel

theorem witness_UpdateAndFinalOutsideAbsorbFault :
    Engine.reset.st = .idle ∧ finished.st = .done ∧
    exec .abort (machine faulted []) = .next (machine faulted []) ∧ (machine faulted []).engine.st = .fault :=
  ⟨by decide, by decide, rfl, rfl⟩

theorem witness_FaultIgnoresEveryWordButInit :
    Presents (machine faulted [.command 0x1001]) 0x1001 [] ∧ faulted.st = .fault ∧ (0x1001 : CmdWord) ≠ 0x1000 ∧
    rstHigh (machine faulted []) = false :=
  ⟨⟨rfl, rfl⟩, rfl, by decide, rfl⟩

/-- One word for each clause of the priority, at the ends of the opcode range. -/
theorem witness_WordsFaultByPriority :
    ¬ (1 ≤ (0x0000 : CmdWord).toNat / 4096) ∧ ¬ ((0x5000 : CmdWord).toNat / 4096 ≤ 4) ∧
    ((0x1100 : CmdWord).toNat / 4096 = 1 ∧ (0x1100 : CmdWord).toNat / 256 % 16 ≠ 0) ∧
    ((0x4001 : CmdWord).toNat / 4096 = 4 ∧ (0x4001 : CmdWord).toNat % 256 ≠ 0) ∧
    ((0x2000 : CmdWord).toNat / 4096 = 2 ∧ (0x2000 : CmdWord).toNat / 256 % 16 = 0) ∧
    ((0x3000 : CmdWord).toNat / 4096 = 3 ∧ (0x3000 : CmdWord).toNat / 256 % 16 = 0 ∧ (0x3000 : CmdWord).toNat % 256 = 0) ∧
    ((0x1000 : CmdWord).toNat / 4096 = 1 ∧ (0x4000 : CmdWord).toNat / 4096 = 4) ∧
    finished.st ≠ .fault ∧ finished.st ≠ .absorb ∧ twoBytes.st = .absorb := by decide +kernel

theorem witness_OnlyInitAndResetLeaveFault :
    (∃ t, step (machine faulted [.command 0x3000]) = .next t) ∧ (∃ t, step (machine faulted [.reset]) = .next t) ∧
    (∃ t, step (machine faulted [.command 0x1000]) = .next t) ∧ faulted.st = .fault :=
  ⟨⟨_, rfl⟩, ⟨_, rfl⟩, ⟨_, rfl⟩, rfl⟩

theorem witness_FaultRecordKeepsTheFirstFault : ∃ t, step (machine Engine.reset [.command 0x5000]) = .next t := ⟨_, rfl⟩

theorem witness_LifecycleTransitionTable :
    decode 0x5000 = .illegal .illegalOpcode ∧ (0x2061 : CmdWord) = 0x2000 ||| (0x61 : Byte).setWidth 16 ∧
    faulted.st = .fault ∧ twoBytes.st = .absorb ∧ Engine.reset.st ≠ .fault ∧ finished.st ≠ .absorb := by decide +kernel

theorem witness_DecodeInvertsEncode : (Instr.update 0xFF).wf = true ∧ decode 0x20FF = .legal (.update 0xFF) := by
  decide +kernel

theorem witness_LegalWordsFitOneTableRow :
    decode 0x20FF = .legal (.update 0xFF) ∧ (opcodeRow (.update 0)) ∈ opcodeTable ∧
    (opcodeRow (.update 0)).fits 0x20FF = true := by decide +kernel

theorem witness_StatusLayout :
    (machine faulted []).phase ≠ .unreset ∧ (ports (machine faulted [])).cmdReady = true := by decide +kernel

theorem witness_DigestPortIsLittleEndian :
    (machine finished []).phase ≠ .unreset ∧ digestValid (machine finished []) = true ∧
    digestValid (machine twoBytes []) = false ∧ (machine twoBytes []).engine.st ≠ .done := by decide +kernel

theorem witness_LatencyByCommand :
    faulted.st = .fault ∧ (0x4000 : CmdWord) ≠ 0x1000 ∧ finished.st ≠ .fault ∧ (manyA 63).st = .absorb ∧
    (commandStep finished 0x3000).st = .fault := by decide +kernel

theorem witness_UnacceptedCyclesKeepTheTuple :
    (machine twoBytes []).host = [] ∧ (machine twoBytes [.idle]).host = [.idle] ∧
    ({ machine threeBytes [.command 0x3000] with phase := .busy 0 (shown twoBytes) } : State).phase =
      .busy 0 (shown twoBytes) := ⟨rfl, rfl, rfl⟩

theorem witness_ProgramIsTheFold :
    (slow (machine faulted [.command 0x1000, .idle, .command 0x2061])).phase = .ready ∧
    ∀ m ∈ (slow (machine faulted [.command 0x1000, .idle, .command 0x2061])).host, m ≠ .reset := by decide +kernel

theorem witness_UpdatesAbsorbTheMessage : Absorbed [] freshOperation ∧ freshOperation.buf.wf = true :=
  ⟨⟨rfl, rfl, rfl, rfl, rfl⟩, rfl⟩

theorem witness_Absorbed_two : Absorbed [0x61, 0x62] twoBytes :=
  ⟨rfl, rfl, by decide +kernel, by decide +kernel, by decide +kernel⟩

theorem witness_HashProgramPublishesMd5 :
    (slow (machine faulted ((hashCommands [0x61]).map .command))).phase = .ready ∧
    (slow (machine faulted ((hashCommands [0x61]).map .command))).host = (hashCommands [0x61]).map .command := ⟨rfl, rfl⟩

/-- Two tuples that differ in a stale byte. -/
theorem witness_StaleBytesNeverShow :
    twoBytes.buf.wf = true ∧ ({ twoBytes with buf := threeBytes.buf } : Engine).buf.wf = true ∧
    StaleEquivalent twoBytes { twoBytes with buf := threeBytes.buf } ∧ twoBytes.buf ≠ threeBytes.buf :=
  ⟨by decide +kernel, by decide +kernel, ⟨rfl, rfl, rfl, rfl, rfl, rfl, by decide +kernel⟩, by decide +kernel⟩

theorem witness_StepKeepsTheInvariant :
    (machine twoBytes [.command 0x2063]).Inv ∧ ∃ t, step (machine twoBytes [.command 0x2063]) = .next t :=
  ⟨⟨fun _ => ⟨by decide +kernel, by decide +kernel, by decide, by decide, by decide, by decide, by decide⟩⟩, _, rfl⟩

theorem witness_DoneOnlyThroughFinal :
    (match step (machine threeBytes [.command 0x3000]) with
      | .next t => decide (t.engine.st = .done)
      | .fault _ => false
      | .refused _ => false) = true := by decide +kernel

theorem witness_NoFinalNoDigest : twoBytes.st ≠ .done ∧ (0x3000 : CmdWord) ∉ [0x2063, 0x4000, 0x1000] := by
  decide +kernel

theorem witness_BitLengthIsExact : Absorbed [0x61, 0x62] twoBytes ∧ [0x61, 0x62].length < 2 ^ 61 :=
  ⟨witness_Absorbed_two, by decide⟩

/-- Two lists that differ outside the block alone. -/
theorem witness_CompressReadsOnlyTheBlock :
    ∀ k < 64, readByte [(0, 0x80)] k = readByte [(0, 0x80), (64, 0x01)] k := by decide +kernel

theorem witness_RotlMovesEveryBit : 1 ≤ 1 ∧ 31 ≤ 31 ∧ 0 < 32 ∧ 31 < 32 := by decide

theorem witness_MemReadAfterMemWrite : 56 + 8 ≤ 64 ∧ 63 + 1 ≤ 64 ∧ threeBytes.buf.wf = true := by decide +kernel

theorem witness_HexRenderingOfADigest : 0 < [(0xd4 : Byte), 0x1d].length ∧ 1 < [(0xd4 : Byte), 0x1d].length := by decide

theorem witness_OnlyDotWordWritesIllegalWords :
    (∀ w, AsmLine.updateRep 0x61 2 ≠ .word w) ∧ updateWord 0x61 ∈ (AsmLine.updateRep 0x61 2).words :=
  ⟨by simp, by decide +kernel⟩

/-- A ready cycle, a cycle held by a busy engine. -/
theorem witness_AcceptedExactlyWhenReady :
    (ports (machine twoBytes [.command 0x5000])).cmdReady = true ∧
    (ports { machine threeBytes [.command 0x5000] with phase := .busy 0 (shown twoBytes) }).cmdReady = false ∧
    (machine twoBytes [.command 0x5000]).phase ≠ .unreset := ⟨rfl, rfl, by decide⟩

theorem witness_EveryBusyCycleDrawsAnew :
    ∃ t, step { machine threeBytes [.reset] with phase := .busy 5 (shown twoBytes) } = .next t := ⟨_, rfl⟩

end Sys2Proof.Tests
end

section
/-! The digest port (R29, R54): what it shows when valid and when not, and the digest word lane by lane. -/

namespace Sys2Proof.Machine

/-- Lane 4j + t of the digest word is byte t of acc[j] (R54). -/
theorem digestWord_lane (r : Acc) {j t : Nat} (hj : j < 4) (ht : t < 4) :
    (digestWord r).extractLsb' (8 * (4 * j + t)) 8 = (r.word ⟨j, hj⟩).extractLsb' (8 * t) 8 := by
  have hdiv : (4 * j + t) / 4 = j := by omega
  have hmod : (4 * j + t) % 4 = t := by omega
  have hbyte := digestWord_byte r ⟨4 * j + t, by omega⟩
  simpa only [digestByte, hdiv, hmod] using hbyte

/-- A 32-bit word is its four bytes. -/
theorem word_eq_of_bytes {x y : Word} (h : ∀ t < 4, x.extractLsb' (8 * t) 8 = y.extractLsb' (8 * t) 8) : x = y := by
  apply BitVec.eq_of_getLsbD_eq
  intro i hi
  have hbit := congrArg (BitVec.getLsbD · (i % 8)) (h (i / 8) (by omega))
  simpa [BitVec.getLsbD_extractLsb', Nat.mod_lt, Nat.div_add_mod] using hbit

/-- A slice of a slice is a slice, at the sum of the two offsets. -/
theorem extractLsb'_of_slice {w m n a b : Nat} (x : BitVec w) (h : a + n ≤ m) :
    (x.extractLsb' b m).extractLsb' a n = x.extractLsb' (b + a) n := by
  ext i hi
  have hm : a + i < m := by omega
  simp [hm, Nat.add_assoc]

/-- Bits 32j to 32j + 31 of the digest word are acc[j]. -/
theorem digestWord_word (r : Acc) (j : Fin 4) : (digestWord r).extractLsb' (32 * j.val) 32 = r.word j := by
  refine word_eq_of_bytes fun t ht => ?_
  calc ((digestWord r).extractLsb' (32 * j.val) 32).extractLsb' (8 * t) 8
      = (digestWord r).extractLsb' (8 * (4 * j.val + t)) 8 := by
        rw [extractLsb'_of_slice _ (by omega), show 32 * j.val + 8 * t = 8 * (4 * j.val + t) by omega]
    _ = (r.word j).extractLsb' (8 * t) 8 := digestWord_lane r j.isLt ht

section DigestPort

variable {s : State}

theorem readyPorts_digest_of_done {e : Engine} (h : e.st = .done) : (readyPorts e).digest = digestWord e.acc := if_pos h

theorem readyPorts_digest_of_not_done {e : Engine} (h : e.st ≠ .done) : (readyPorts e).digest = 0 := if_neg h

/-- Once reset, the ports are those of a ready engine on its tuple or those of a busy one. -/
theorem ports_ready_or_busy (h : s.phase ≠ .unreset) : ports s = readyPorts s.engine ∨ ∃ f, ports s = busyPorts f := by
  cases r : rstHigh s with
  | true => exact .inr ⟨shown Engine.reset, if_pos r⟩
  | false =>
    cases hp : s.phase with
    | unreset => exact absurd hp h
    | ready => exact .inl (ports_ready r hp)
    | busy more before => exact .inr ⟨_, ports_busy r hp⟩

/-- Once reset, either the digest is valid, ST is DONE and the port carries the digest word, or it is not valid and the
port reads zeros (R29). -/
theorem digest_published_or_zero (h : s.phase ≠ .unreset) :
    (digestValid s = true ∧ s.engine.st = .done ∧ (ports s).digest = digestWord s.engine.acc) ∨
    (digestValid s = false ∧ (ports s).digest = 0) := by
  obtain hready | ⟨f, hbusy⟩ := ports_ready_or_busy h
  · have hvalid : digestValid s = decide (s.engine.st = .done) := by
      rw [digestValid, hready]
      exact statusWord_valid ..
    by_cases hdone : s.engine.st = .done
    · exact .inl ⟨by simpa [hdone] using hvalid, hdone, by rw [hready, readyPorts_digest_of_done hdone]⟩
    · exact .inr ⟨by simpa [hdone] using hvalid, by rw [hready, readyPorts_digest_of_not_done hdone]⟩
  · have hvalid : digestValid s = false := by
      rw [digestValid, hbusy]
      exact statusWord_valid ..
    exact .inr ⟨hvalid, by rw [hbusy]; rfl⟩

end DigestPort

/-- Settles O25: by the two cases of the digest port; a valid digest is the digest word, read lane by lane and word by
word. -/
theorem digestPortIsLittleEndian : Obligations.DigestPortIsLittleEndian := by
  intro s hreset
  obtain ⟨hvalid, hdone, hdigest⟩ | ⟨hvalid, hzero⟩ := digest_published_or_zero hreset
  · refine ⟨fun _ => ?_, fun hinvalid => absurd (hvalid.symm.trans hinvalid) (by decide), fun hst => absurd hdone hst⟩
    rw [hdigest]
    exact ⟨fun _ _ hj ht => digestWord_lane _ hj ht, digestWord_word _ 0, digestWord_word _ 1, digestWord_word _ 2,
      digestWord_word _ 3⟩
  · exact ⟨fun hv => absurd (hvalid.symm.trans hv) (by decide), fun _ => hzero, fun _ => hzero⟩

end Sys2Proof.Machine
end

section
/-! MemRead byte by byte, and the message word it gives the Compression Function (R9, R52). -/

namespace Sys2Proof.Machine

/-- R9: byte t of MemRead(k, n) is buf[k + t]. -/
theorem memRead_byte (m : Memory) {k n t : Nat} (h : k + n ≤ bufSize) (ht : t < n) :
    (memRead m k n h).extractLsb' (8 * t) 8 = readByte m (k + t) := by
  have hlt : littleEndian (readBytes m k n) < 2 ^ (8 * n) := by
    have hbytes := littleEndian_lt (readBytes m k n)
    rwa [readBytes_length, show 256 = 2 ^ 8 from rfl, ← pow_mul] at hbytes
  apply BitVec.eq_of_toNat_eq
  rw [BitVec.extractLsb'_toNat, memRead, BitVec.toNat_ofNat, Nat.mod_eq_of_lt hlt, Nat.shiftRight_eq_div_pow, pow_mul,
    show (2 : Nat) ^ 8 = 256 from rfl, littleEndian_byte, readBytes_getD ht]

/-- Byte t of X[j] is buf[4j + t] (R52). -/
theorem messageWord_byte (m : Memory) (j : Fin 16) {t : Nat} (ht : t < 4) :
    (messageWord m j).extractLsb' (8 * t) 8 = readByte m (4 * j.val + t) :=
  memRead_byte m _ ht

/-- A byte moved to lane s of a word fills that lane and leaves the others zero. -/
theorem shiftedByte_lane (b : Byte) {s t : Nat} (ht : t < 4) :
    (b.setWidth 32 <<< (8 * s)).extractLsb' (8 * t) 8 = if s = t then b else 0 := by
  ext i hi
  have hword : 8 * t + i < 32 := by omega
  rcases Nat.lt_trichotomy s t with hlt | heq | hgt
  · have hpast : 8 ≤ 8 * t + i - 8 * s := by omega
    simp [hword, hlt.ne, BitVec.getLsbD_of_ge _ _ hpast]
  · subst heq
    simp [hword, hi]
  · have hbelow : 8 * t + i < 8 * s := by omega
    simp [hword, hgt.ne', hbelow]

/-- Four bytes moved to their lanes and joined by or: lane t holds the t-th of them. -/
theorem joinedBytes_lane (f : Nat → Byte) {t : Nat} (ht : t < 4) :
    ((f 0).setWidth 32 ||| ((f 1).setWidth 32 <<< 8) ||| ((f 2).setWidth 32 <<< 16) |||
      ((f 3).setWidth 32 <<< 24)).extractLsb' (8 * t) 8 = f t := by
  have hlane (s : Nat) := shiftedByte_lane (f s) (s := s) ht
  have h0 : ((f 0).setWidth 32).extractLsb' (8 * t) 8 = if 0 = t then f 0 else 0 := by simpa using hlane 0
  rw [BitVec.extractLsb'_or, BitVec.extractLsb'_or, BitVec.extractLsb'_or, h0, hlane 1, hlane 2, hlane 3]
  match t, ht with
  | 0, _ | 1, _ | 2, _ | 3, _ => simp

/-- Settles O47: X[j] and the joined bytes agree lane by lane, and a word is its four bytes. -/
theorem messageWordIsLittleEndian : Obligations.MessageWordIsLittleEndian := by
  intro m j
  refine ⟨rfl, word_eq_of_bytes fun t ht => ?_, fun t ht => messageWord_byte m j ht⟩
  exact (messageWord_byte m j ht).trans (joinedBytes_lane (fun t => readByte m (4 * j.val + t)) ht).symm

end Sys2Proof.Machine
end

section
/-! The decoder on the fields of the word read as numbers (R70, R76). -/

namespace Sys2Proof

variable (w : CmdWord)

/-- OP read as a number, compared with a constant. -/
theorem opField_eq_iff (op : BitVec 4) : opField w = op ↔ w.toNat / 4096 = op.toNat := by
  rw [← BitVec.toNat_inj, opField_toNat]

/-- RSV read as a number, compared with zero. -/
theorem rsvField_ne_zero_iff : rsvField w ≠ 0 ↔ w.toNat / 256 % 16 ≠ 0 := by
  rw [ne_eq, ← BitVec.toNat_inj, rsvField_toNat, BitVec.ofNat_eq_ofNat, BitVec.toNat_zero]

/-- DATA read as a number, compared with zero. -/
theorem dataField_ne_zero_iff : dataField w ≠ 0 ↔ w.toNat % 256 ≠ 0 := by
  rw [ne_eq, ← BitVec.toNat_inj, dataField_toNat, BitVec.ofNat_eq_ofNat, BitVec.toNat_zero]

/-- DATA is the byte of its number (R72). -/
theorem dataField_eq_ofNat : dataField w = BitVec.ofNat 8 (w.toNat % 256) := by
  rw [← dataField_toNat, BitVec.ofNat_toNat, BitVec.setWidth_eq]

/-- R74: OP is reserved exactly when its number is none of 1 to 4. -/
theorem not_assignedOp_opField_iff :
    ¬ assignedOp (opField w) ↔
      w.toNat / 4096 ≠ 1 ∧ w.toNat / 4096 ≠ 2 ∧ w.toNat / 4096 ≠ 3 ∧ w.toNat / 4096 ≠ 4 := by
  simp [assignedOp, opField_eq_iff, and_assoc]

/-- Settles O19: the decoder and the listing ask the same questions in the same order, one `if_congr` for each. -/
theorem decodeFollowsTheListing : Obligations.DecodeFollowsTheListing := by
  rintro w op rsv data rfl rfl rfl
  rw [decode]
  refine if_congr (not_assignedOp_opField_iff w) rfl ?_
  refine if_congr (rsvField_ne_zero_iff w) rfl ?_
  refine if_congr (opField_eq_iff w 2) (by rw [dataField_eq_ofNat]) ?_
  refine if_congr (dataField_ne_zero_iff w) rfl ?_
  exact if_congr (opField_eq_iff w 1) rfl (if_congr (opField_eq_iff w 3) rfl rfl)

end Sys2Proof
end

section
/-! The auxiliary functions bit by bit, and the rounds that use each (R102 to R107). -/

namespace Sys2Proof.Machine

/-- R102: the stage as a number. -/
theorem stageOf_eq_iff {i : Fin 64} {s : Fin 4} : stageOf i = s ↔ i.val / 16 = s.val := Fin.ext_iff

/-- R107: the stage dispatch by ranges of rounds. -/
theorem fStage_eq_by_range (i : Fin 64) (b c d : Word) : fStage i b c d =
    if i.val ≤ 15 then f0 b c d else if i.val ≤ 31 then f1 b c d else if i.val ≤ 47 then f2 b c d else f3 b c d := by
  rw [fStage]
  split
  case h_1 hs =>
    have hdiv : i.val / 16 = 0 := stageOf_eq_iff.mp hs
    rw [if_pos (by omega)]
  case h_2 hs =>
    have hdiv : i.val / 16 = 1 := stageOf_eq_iff.mp hs
    rw [if_neg (by omega), if_pos (by omega)]
  case h_3 hs =>
    have hdiv : i.val / 16 = 2 := stageOf_eq_iff.mp hs
    rw [if_neg (by omega), if_neg (by omega), if_pos (by omega)]
  case h_4 hs =>
    have hdiv : i.val / 16 = 3 := stageOf_eq_iff.mp hs
    rw [if_neg (by omega), if_neg (by omega), if_neg (by omega)]

section Bits

variable (b c d : Word) {n : Nat} (hn : n < 32)
include hn

/-- R103: b chooses between c and d. -/
theorem f0_getLsbD : (f0 b c d).getLsbD n = if b.getLsbD n then c.getLsbD n else d.getLsbD n := by
  rw [f0, BitVec.getLsbD_or, BitVec.getLsbD_and, BitVec.getLsbD_and, BitVec.getLsbD_not, decide_eq_true hn]
  cases b.getLsbD n <;> simp

/-- R104: d chooses between b and c. -/
theorem f1_getLsbD : (f1 b c d).getLsbD n = if d.getLsbD n then b.getLsbD n else c.getLsbD n := by
  rw [f1, BitVec.getLsbD_or, BitVec.getLsbD_and, BitVec.getLsbD_and, BitVec.getLsbD_not, decide_eq_true hn]
  cases d.getLsbD n <;> simp

/-- R106: the complement of d is taken within the 32 bits. -/
theorem f3_getLsbD : (f3 b c d).getLsbD n = (c.getLsbD n ^^ (b.getLsbD n || !d.getLsbD n)) := by
  simp [f3, hn]

end Bits

/-- R105: the parity of the three bits. -/
theorem f2_getLsbD (b c d : Word) (n : Nat) :
    (f2 b c d).getLsbD n = ((b.getLsbD n ^^ c.getLsbD n) ^^ d.getLsbD n) := by
  simp [f2]

/-- Settles O41: the formulas are the definitions; the rounds by stage, the bits by the function's own lemma, and the
four examples by evaluation. -/
theorem auxFunctionsBitByBit : Obligations.AuxFunctionsBitByBit := by
  refine ⟨fun b c d => ⟨rfl, rfl, rfl, rfl⟩, fStage_eq_by_range, fun b c d n hn => ?_, by decide +kernel⟩
  exact ⟨f0_getLsbD b c d hn, f1_getLsbD b c d hn, f2_getLsbD b c d n, f3_getLsbD b c d hn⟩

end Sys2Proof.Machine
end

section
/-! The sine formula of the table K (R108). The sine of k is the imaginary part of (exp I)^k. The Taylor polynomial of
exp at I, times n!, is a Gaussian integer at distance at most 1 from n! * exp I; its powers, computed exactly, bracket
each sine closely enough to fix the floor: for n = 20 the error in
2^32 * sin k is at most 64 * 2^32 / 20!, about 10^-7. -/

namespace Sys2Proof.Machine

open Complex

/-- n! * (the sum of I^m / m! for m ≤ n), a Gaussian integer. -/
def scaledTaylor : Nat → GaussianInt
  | 0 => 1
  | n + 1 => (n + 1) * scaledTaylor n + ⟨0, 1⟩ ^ (n + 1)

/-- It is n! times the Taylor polynomial. -/
theorem scaledTaylor_toComplex (n : Nat) :
    (scaledTaylor n : ℂ) = n.factorial * ∑ m ∈ Finset.range (n + 1), I ^ m / m.factorial := by
  induction n with
  | zero => simp [scaledTaylor]
  | succ n ih =>
    have hfact : ((n + 1).factorial : ℂ) ≠ 0 := Nat.cast_ne_zero.mpr (Nat.factorial_ne_zero _)
    have hI : ((⟨0, 1⟩ : GaussianInt) : ℂ) = I := by simp [GaussianInt.toComplex_def']
    rw [Finset.sum_range_succ, mul_add, mul_div_cancel₀ _ hfact, Nat.factorial_succ, Nat.cast_mul, mul_assoc, ← ih]
    simp [scaledTaylor, hI]

/-- The remainder of the exponential series, times n!, is at most 1. -/
theorem norm_factorial_mul_exp_sub_scaledTaylor_le {n : Nat} (hn : 1 ≤ n) :
    ‖n.factorial * exp I - (scaledTaylor n : ℂ)‖ ≤ 1 := by
  have hfact : (0 : ℝ) < n.factorial := Nat.cast_pos.mpr n.factorial_pos
  have hn' : (1 : ℝ) ≤ n := Nat.one_le_cast.mpr hn
  have hbound := exp_bound norm_I.le n.succ_pos
  rw [norm_I, one_pow, one_mul, Nat.factorial_succ] at hbound
  rw [scaledTaylor_toComplex, ← mul_sub, norm_mul, norm_natCast]
  calc (n.factorial : ℝ) * ‖exp I - ∑ m ∈ Finset.range (n + 1), I ^ m / m.factorial‖
      ≤ n.factorial * ((n + 2) * ((n + 1) * n.factorial * (n + 1) : ℝ)⁻¹) := by
        refine mul_le_mul_of_nonneg_left (hbound.trans_eq ?_) hfact.le
        push_cast
        ring
    _ = (n + 2) / (n + 1) ^ 2 := by field_simp
    _ ≤ 1 := by
        rw [div_le_one (by positivity)]
        nlinarith

/-- Two complex numbers at distance at most 1 and of norm at most r: how far their powers drift apart. -/
theorem norm_pow_succ_sub_pow_succ_le {z w : ℂ} {r : ℝ} (hz : ‖z‖ ≤ r) (hw : ‖w‖ ≤ r) (hzw : ‖z - w‖ ≤ 1) (k : Nat) :
    ‖z ^ (k + 1) - w ^ (k + 1)‖ ≤ (k + 1) * r ^ k := by
  have hr : 0 ≤ r := (norm_nonneg z).trans hz
  induction k with
  | zero => simpa using hzw
  | succ k ih =>
    have hpow : ‖w ^ (k + 1)‖ ≤ r ^ (k + 1) := by rw [norm_pow]; gcongr
    calc ‖z ^ (k + 2) - w ^ (k + 2)‖
        = ‖z * (z ^ (k + 1) - w ^ (k + 1)) + w ^ (k + 1) * (z - w)‖ := by ring_nf
      _ ≤ ‖z‖ * ‖z ^ (k + 1) - w ^ (k + 1)‖ + ‖w ^ (k + 1)‖ * ‖z - w‖ := by
          rw [← norm_mul, ← norm_mul]
          exact norm_add_le _ _
      _ ≤ r * ((k + 1) * r ^ k) + r ^ (k + 1) * 1 := by gcongr
      _ = ((k + 1 : Nat) + 1) * r ^ (k + 1) := by
          push_cast
          ring

/-- exp(I)^k has the sine of k as its imaginary part. -/
theorem im_exp_I_pow (k : Nat) : (exp I ^ k).im = Real.sin k := by
  rw [← exp_nat_mul, ← ofReal_natCast, exp_ofReal_mul_I_im]

/-- r^(k+1) times |sin(k+1)|, approximated by the imaginary part of an exact power. -/
theorem abs_scaled_sin_sub_im_le {w : GaussianInt} {r : Nat} (hw : w.norm ≤ r ^ 2) (hexp : ‖r * exp I - (w : ℂ)‖ ≤ 1)
    (k : Nat) :
    |r ^ (k + 1) * |Real.sin (k + 1)| - ((w ^ (k + 1)).im.natAbs : ℝ)| ≤ (k + 1) * r ^ k := by
  have hr : (0 : ℝ) ≤ r := r.cast_nonneg
  have hnorm : ‖(w : ℂ)‖ ≤ r := by
    rw [← sq_le_sq₀ (norm_nonneg _) hr, ← normSq_eq_norm_sq, ← GaussianInt.intCast_real_norm]
    exact_mod_cast hw
  have hscaled : ‖r * exp I‖ ≤ (r : ℝ) := by simp [norm_exp]
  have him : ((r * exp I) ^ (k + 1) - (w : ℂ) ^ (k + 1)).im = r ^ (k + 1) * Real.sin (k + 1) - ((w ^ (k + 1)).im : ℝ) := by
    have hsin : (r ^ (k + 1) * exp I ^ (k + 1)).im = (r : ℝ) ^ (k + 1) * Real.sin (k + 1) := by
      rw [← ofReal_natCast, ← ofReal_pow, im_ofReal_mul, im_exp_I_pow, Nat.cast_succ]
    rw [sub_im, mul_pow, hsin, ← map_pow, GaussianInt.intCast_im]
  calc |r ^ (k + 1) * |Real.sin (k + 1)| - ((w ^ (k + 1)).im.natAbs : ℝ)|
      = |(|r ^ (k + 1) * Real.sin (k + 1)| - |((w ^ (k + 1)).im : ℝ)|)| := by
        rw [abs_mul, abs_of_nonneg (pow_nonneg hr _), Nat.cast_natAbs, Int.cast_abs]
    _ ≤ |r ^ (k + 1) * Real.sin (k + 1) - ((w ^ (k + 1)).im : ℝ)| := abs_abs_sub_abs_le_abs_sub _ _
    _ ≤ ‖(r * exp I) ^ (k + 1) - (w : ℂ) ^ (k + 1)‖ := him ▸ abs_im_le_norm _
    _ ≤ (k + 1) * r ^ k := norm_pow_succ_sub_pow_succ_le hscaled hnorm hexp k

/-- c * (y - e) and c * (y + e) both lie in [v * p, (v + 1) * p). An abbreviation, so that `decide` sees the comparisons. -/
abbrev FixesFloor (c v p y e : Nat) : Prop := v * p + c * e ≤ c * y ∧ c * y + c * e < (v + 1) * p

/-- A floor from an approximation: p * a is within e of y. -/
theorem floor_eq_of_fixesFloor {a : ℝ} {c v p y e : Nat} (hfix : FixesFloor c v p y e) (hp : 0 < p)
    (happrox : |p * a - y| ≤ e) (ha : 0 ≤ a) : ⌊(c : ℝ) * a⌋₊ = v := by
  obtain ⟨hlow, hhigh⟩ := hfix
  obtain ⟨hbelow, habove⟩ := abs_le.mp happrox
  have hp' : (0 : ℝ) < p := Nat.cast_pos.mpr hp
  have hlow' : (v * p + c * e : ℝ) ≤ c * y := by exact_mod_cast hlow
  have hhigh' : (c * y + c * e : ℝ) < (v + 1) * p := by exact_mod_cast hhigh
  have hc : (0 : ℝ) ≤ c := c.cast_nonneg
  rw [Nat.floor_eq_iff (mul_nonneg hc ha)]
  constructor
  · refine le_of_mul_le_mul_right ?_ hp'
    nlinarith [mul_le_mul_of_nonneg_left hbelow hc]
  · refine lt_of_mul_lt_mul_right ?_ hp'.le
    nlinarith [mul_le_mul_of_nonneg_left habove hc]

/-- The Taylor polynomial of degree 20 at I lies in the unit disc. -/
theorem scaledTaylor_norm_le : (scaledTaylor 20).norm ≤ Nat.factorial 20 ^ 2 := by decide +kernel

/-- 64 exact comparisons: the interval around 2^32 * |sin(i+1)| has the table's entry as its only floor. -/
theorem kTable_fixesFloor (i : Fin 64) :
    FixesFloor (2 ^ 32) (roundK i).toNat (Nat.factorial 20 ^ (i.val + 1)) (scaledTaylor 20 ^ (i.val + 1)).im.natAbs
      ((i.val + 1) * Nat.factorial 20 ^ i.val) := by
  revert i
  decide +kernel

/-- Settles O43: the exact powers of the Taylor polynomial of degree 20 approximate the sines closely enough to fix the
floors. -/
theorem kTableIsTheSineFormula : Obligations.KTableIsTheSineFormula := by
  intro i
  have hexp := norm_factorial_mul_exp_sub_scaledTaylor_le (n := 20) (by decide)
  have happrox := abs_scaled_sin_sub_im_le scaledTaylor_norm_le hexp i.val
  have hfloor := floor_eq_of_fixesFloor (kTable_fixesFloor i) (pow_pos (Nat.factorial_pos 20) _)
    (by exact_mod_cast happrox) (abs_nonneg _)
  exact_mod_cast hfloor.symm

end Sys2Proof.Machine
end

section
/-! UPDATE in ABSORB, and the 64th byte of a block (R140, R141, R144). -/

namespace Sys2Proof.Machine

/-- R140: in ABSORB, UPDATE absorbs its byte. -/
theorem exec_update_absorb (data : Byte) {s : State} (h : s.engine.st = .absorb) :
    exec (.update data) s = .next (s.withEngine (absorbByte data s.engine)) := by
  simp only [exec, execUpdate, h]

/-- R140: either way, the byte is written at NBUF. -/
theorem absorbByte_buf (data : Byte) (e : Engine) : (absorbByte data e).buf = writeAtNbuf e data := by
  rw [absorbByte]
  split <;> rfl

section FillsBlock

variable (data : Byte) {e : Engine} (h : e.nbuf.toNat + 1 = 64)
include h

/-- R141: the block that the byte completes is compressed into ACC. -/
theorem absorbByte_acc_of_fills : (absorbByte data e).acc = compress e.acc (absorbByte data e).buf := by
  rw [absorbByte_fills data h]

/-- R141, R144: LEN counts the block, modulo 2^64. -/
theorem absorbByte_len_of_fills : (absorbByte data e).len.toNat = (e.len.toNat + 64) % 2 ^ 64 := by
  rw [absorbByte_fills data h]
  exact BitVec.toNat_add ..

/-- R141: the buffer is empty again. -/
theorem absorbByte_nbuf_of_fills : (absorbByte data e).nbuf = 0 := by
  rw [absorbByte_fills data h]

end FillsBlock

/-- Settles O10: UPDATE absorbs its byte, and the byte at NBUF = 63 fills the block. -/
theorem updateCompletesTheBlock : Obligations.UpdateCompletesTheBlock := by
  intro s data hst hnbuf hwf
  have hfills : s.engine.nbuf.toNat + 1 = 64 := by rw [hnbuf]
  have hbyte (k : Nat) :
      readByte (absorbByte data s.engine).buf k = if k = 63 then data else readByte s.engine.buf k := by
    rw [absorbByte_buf, readByte_writeAtNbuf data hwf, hnbuf]
  exact ⟨_, exec_update_absorb data hst, rfl, hbyte, absorbByte_acc_of_fills data hfills,
    absorbByte_len_of_fills data hfills, absorbByte_nbuf_of_fills data hfills, (absorbByte_st ..).trans hst,
    absorbByte_fcode .., absorbByte_fcmd .., absorbByte_wf data hwf⟩

end Sys2Proof.Machine
end

section
/-! FINAL in ABSORB: one padding block or two, by the room left after the message bytes (R160 to R163). -/

namespace Sys2Proof.Machine

/-- R160: in ABSORB, FINAL finishes the message. -/
theorem exec_final_absorb {s : State} (h : s.engine.st = .absorb) :
    exec .final s = .next (s.withEngine (finishMessage s.engine)) := by
  simp only [exec, execFinal, h]

section SingleBlock

variable {e : Engine} (hrem : e.nbuf.toNat < 56)
include hrem

/-- R162: the one block is compressed once. -/
theorem finishMessage_acc_of_single : (finishMessage e).acc = compress e.acc (finishMessage e).buf := by
  rw [finishMessage_single hrem]

/-- R162: the marker and the zeros lie below the length field. -/
theorem readByte_finishMessage_single (hwf : e.buf.wf = true) {k : Nat} (hk : k < 64) :
    readByte (finishMessage e).buf k =
      if k < e.nbuf.toNat then readByte e.buf k
      else if k = e.nbuf.toNat then 0x80
      else if k < 56 then 0x00
      else (bitLength e).extractLsb' (8 * (k - 56)) 8 := by
  rw [finishMessage_single hrem, readByte_writeLength _ (padMark_wf hwf) hk, readByte_padMark hwf hk]
  by_cases hfield : k < 56
  · rw [if_pos hfield, if_pos hfield]
  · rw [if_neg hfield, if_neg (by omega), if_neg (by omega), if_neg hfield]

end SingleBlock

section DoubleBlock

variable {e : Engine} (hrem : ¬ e.nbuf.toNat < 56)
include hrem

/-- R163: the padded message bytes are compressed first, the block with the length field second. -/
theorem finishMessage_acc_of_double :
    (finishMessage e).acc = compress (compress e.acc (padMark e)) (finishMessage e).buf := by
  rw [finishMessage_double hrem]

/-- R163: the second block is zeros and the length field. -/
theorem readByte_finishMessage_double (hwf : e.buf.wf = true) {k : Nat} (hk : k < 64) :
    readByte (finishMessage e).buf k = if k < 56 then 0x00 else (bitLength e).extractLsb' (8 * (k - 56)) 8 := by
  rw [finishMessage_double hrem, readByte_lengthBlock _ (padMark_wf hwf) hk]

end DoubleBlock

/-- R161, R163: over whole blocks in LEN, rem is the message length modulo 64; 2^64 is a multiple of 64, so a wrap of
the length does not show. -/
theorem messageLength_mod_block {e : Engine} (hlen : e.len.toNat % 64 = 0) :
    (messageLength e).toNat % 64 = e.nbuf.toNat := by
  have hnbuf := e.nbuf.isLt
  rw [messageLength, BitVec.toNat_add, BitVec.toNat_setWidth]
  omega

/-- Settles O11: below 56 FINAL is the one-block case of finishing the message. -/
theorem finalPadsOneBlock : Obligations.FinalPadsOneBlock := by
  intro s hst hrem hwf
  exact ⟨_, exec_final_absorb hst, rfl, fun _ hk => readByte_finishMessage_single hrem hwf hk,
    finishMessage_acc_of_single hrem, finishMessage_nbuf, finishMessage_st, finishMessage_len, finishMessage_fcode,
    finishMessage_fcmd, finishMessage_wf hwf⟩

/-- Settles O12: from 56 on FINAL is the two-block case; the first block is the padded buffer. -/
theorem finalPadsTwoBlocks : Obligations.FinalPadsTwoBlocks := by
  intro s hst hrem hwf
  have hdouble : ¬ s.engine.nbuf.toNat < 56 := Nat.not_lt.mpr hrem
  exact ⟨_, padMark s.engine, exec_final_absorb hst, rfl, fun _ hk => readByte_padMark hwf hk,
    fun _ hk => readByte_finishMessage_double hdouble hwf hk, finishMessage_acc_of_double hdouble, finishMessage_nbuf,
    finishMessage_st, finishMessage_len, finishMessage_fcode, finishMessage_fcmd, finishMessage_wf hwf,
    messageLength_mod_block⟩

end Sys2Proof.Machine
end

section
/-! INIT from every state, the malformed words beside its own, and the commands that FAULT ignores (R180, R228,
R229). -/

namespace Sys2Proof.Machine

/-- R223: beside 0x1000 itself, a word with OP = 0x1 has RSV or DATA other than zero, and is illegal for it. -/
theorem decode_malformed_init {w : CmdWord} (hop : w.toNat / 4096 = 1) (hw : w ≠ 0x1000) :
    decode w = .illegal .reservedField := by
  have hne : w.toNat ≠ 0x1000 := fun h => hw (BitVec.eq_of_toNat_eq h)
  rw [decodeFollowsTheListing w _ _ _ rfl rfl rfl, hop, if_neg (by decide)]
  by_cases hrsv : w.toNat / 256 % 16 = 0
  · have hdata : w.toNat % 256 ≠ 0 := by omega
    rw [if_neg (not_not.mpr hrsv), if_neg (by decide), if_pos hdata]
  · rw [if_pos hrsv]

/-- R226: outside FAULT, an illegal word enters FAULT with its code. -/
theorem commandStep_illegal {e : Engine} {w : CmdWord} {code : FaultCode} (hst : e.st ≠ .fault)
    (hdecode : decode w = .illegal code) : commandStep e w = faultEntry code w e := by
  rw [commandStep, if_neg hst, hdecode]

/-- R228: in FAULT, every word but 0x1000 is ignored. -/
theorem commandStep_ignored {e : Engine} {w : CmdWord} (hst : e.st = .fault) (hw : w ≠ 0x1000) :
    commandStep e w = e := by
  rw [commandStep, if_pos hst, if_neg hw]

/-- R228, R229: in FAULT, every command but INIT changes nothing. -/
theorem exec_ignored {i : Instr} {s : State} (hi : i ≠ .init) (hst : s.engine.st = .fault) : exec i s = .next s := by
  cases i with
  | init => exact absurd rfl hi
  | update data => simp only [exec, execUpdate, hst]
  | final => simp only [exec, execFinal, hst]
  | abort => simp only [exec, execAbort, hst]

/-- R180: what STATUS shows of the fresh tuple: ST = ABSORB and all else zero. -/
theorem readyPorts_status_freshOperation : (readyPorts freshOperation).status = 0x00000001 := by decide

/-- Settles O7: INIT's meaning is the one fresh tuple; a malformed INIT word is an illegal word outside FAULT and an
ignored one in FAULT. -/
theorem initOpensAFreshOperation : Obligations.InitOpensAFreshOperation := by
  refine ⟨rfl, fun w e hop hw => ⟨fun hst => ?_, fun hst => commandStep_ignored hst hw⟩, fun i s => exec_ignored, ?_⟩
  · exact commandStep_illegal hst (decode_malformed_init hop hw)
  · intro s
    refine ⟨s.withEngine freshOperation, rfl, rfl, rfl, fun k _ => rfl, rfl, rfl, rfl, rfl, rfl, fun hready hrst => ?_⟩
    have hports : ports (s.withEngine freshOperation) = readyPorts freshOperation := ports_ready hrst hready
    rw [hports, readyPorts_status_freshOperation]

end Sys2Proof.Machine
end

section
/-! The two checks of the decoder and the legal words they leave, on the fields of the word as numbers (R222, R223). -/

namespace Sys2Proof

variable {w : CmdWord}

/-- R222: a word whose OP is none of 1 to 4 is illegal for it. -/
theorem decode_reservedOp (hop : ¬ (1 ≤ w.toNat / 4096 ∧ w.toNat / 4096 ≤ 4)) : decode w = .illegal .illegalOpcode := by
  rw [decodeFollowsTheListing w _ _ _ rfl rfl rfl, if_pos (by omega)]

/-- R223: with OP assigned, RSV must be zero, and DATA too outside UPDATE. -/
theorem decode_reservedField (hop : 1 ≤ w.toNat / 4096 ∧ w.toNat / 4096 ≤ 4)
    (hfield : w.toNat / 256 % 16 ≠ 0 ∨ (w.toNat / 4096 ≠ 2 ∧ w.toNat % 256 ≠ 0)) :
    decode w = .illegal .reservedField := by
  rw [decodeFollowsTheListing w _ _ _ rfl rfl rfl, if_neg (by omega)]
  by_cases hrsv : w.toNat / 256 % 16 = 0
  · obtain ⟨hupdate, hdata⟩ := hfield.resolve_left (not_not.mpr hrsv)
    rw [if_neg (not_not.mpr hrsv), if_neg hupdate, if_pos hdata]
  · rw [if_pos hrsv]

/-- R73: the well-formed words with OP 2 or 3 are UPDATE and FINAL. -/
theorem decode_update_or_final (hrsv : w.toNat / 256 % 16 = 0)
    (hop : w.toNat / 4096 = 2 ∨ (w.toNat / 4096 = 3 ∧ w.toNat % 256 = 0)) :
    (∃ data, decode w = .legal (.update data)) ∨ decode w = .legal .final := by
  rw [decodeFollowsTheListing w _ _ _ rfl rfl rfl]
  obtain hupdate | ⟨hfinal, hdata⟩ := hop
  · exact .inl ⟨_, by rw [hupdate, hrsv]; rfl⟩
  · exact .inr (by rw [hfinal, hrsv, hdata]; rfl)

/-- R73: the well-formed words with OP 1 or 4 are INIT and ABORT. -/
theorem decode_init_or_abort (hrsv : w.toNat / 256 % 16 = 0) (hdata : w.toNat % 256 = 0)
    (hop : w.toNat / 4096 = 1 ∨ w.toNat / 4096 = 4) : decode w = .legal .init ∨ decode w = .legal .abort := by
  rw [decodeFollowsTheListing w _ _ _ rfl rfl rfl, hrsv, hdata]
  obtain hinit | habort := hop
  · exact .inl (by rw [hinit]; rfl)
  · exact .inr (by rw [habort]; rfl)

end Sys2Proof
end

section
/-! R182's function outside FAULT, by the command that the word decodes to. -/

namespace Sys2Proof.Machine

variable {e : Engine} {w : CmdWord} (hst : e.st ≠ .fault)
include hst

/-- R180: INIT gives the fresh tuple. -/
theorem commandStep_init (hdecode : decode w = .legal .init) : commandStep e w = freshOperation := by
  rw [commandStep, if_neg hst, hdecode]

/-- R181: ABORT abandons the operation. -/
theorem commandStep_abort (hdecode : decode w = .legal .abort) : commandStep e w = abandonOperation e := by
  rw [commandStep, if_neg hst, hdecode]

/-- R140, R224: UPDATE absorbs its byte in ABSORB and enters FAULT elsewhere. -/
theorem commandStep_update {data : Byte} (hdecode : decode w = .legal (.update data)) :
    commandStep e w = if e.st = .absorb then absorbByte data e else faultEntry .badState w e := by
  rw [commandStep, if_neg hst, hdecode]

/-- R160, R224: FINAL finishes the message in ABSORB and enters FAULT elsewhere. -/
theorem commandStep_final (hdecode : decode w = .legal .final) :
    commandStep e w = if e.st = .absorb then finishMessage e else faultEntry .badState w e := by
  rw [commandStep, if_neg hst, hdecode]

end Sys2Proof.Machine
end

section
/-! The fault checks in the order of R226. -/

namespace Sys2Proof.Machine

section UpdateOrFinal

variable {e : Engine} {w : CmdWord} (hdecode : (∃ data, decode w = .legal (.update data)) ∨ decode w = .legal .final)
include hdecode

/-- R224: UPDATE and FINAL in IDLE and DONE raise BAD_STATE. -/
theorem commandStep_badState (hst : e.st ≠ .fault) (habsorb : e.st ≠ .absorb) :
    commandStep e w = faultEntry .badState w e := by
  obtain ⟨data, hupdate⟩ | hfinal := hdecode
  · rw [commandStep_update hst hupdate, if_neg habsorb]
  · rw [commandStep_final hst hfinal, if_neg habsorb]

/-- R140, R160: UPDATE and FINAL in ABSORB record no fault. -/
theorem commandStep_absorb_no_fault (habsorb : e.st = .absorb) :
    (commandStep e w).st ≠ .fault ∧ (commandStep e w).fcode = e.fcode := by
  have hst : e.st ≠ .fault := by simp [habsorb]
  obtain ⟨data, hupdate⟩ | hfinal := hdecode
  · rw [commandStep_update hst hupdate, if_pos habsorb]
    simp [habsorb]
  · rw [commandStep_final hst hfinal, if_pos habsorb]
    simp

end UpdateOrFinal

/-- Settles O15: each clause fixes what the word decodes to, and so the branch of R182's function. -/
theorem wordsFaultByPriority : Obligations.WordsFaultByPriority := by
  rintro e w op rsv data hst rfl rfl rfl
  refine ⟨fun hop => commandStep_illegal hst (decode_reservedOp hop),
    fun hop hfield => commandStep_illegal hst (decode_reservedField hop hfield),
    fun hrsv hop => commandStep_badState (decode_update_or_final hrsv hop) hst,
    fun hrsv hop => commandStep_absorb_no_fault (decode_update_or_final hrsv hop), fun hrsv hdata hop => ?_⟩
  obtain hinit | habort := decode_init_or_abort hrsv hdata hop
  · simp [commandStep_init hst hinit]
  · simp [commandStep_abort hst habort]

end Sys2Proof.Machine
end

section
/-! UPDATE and FINAL in IDLE and DONE, and the commands that never raise a fault (R224). -/

namespace Sys2Proof.Machine

/-- R75: the word of UPDATE is 0x2000 with the byte in DATA. -/
theorem encode_update (data : Byte) : encode (.update data) = 0x2000 ||| data.setWidth 16 := by
  rw [encode, commandWord, BitVec.append_def]
  rfl

section BadState

variable {s : State} (hst : s.engine.st = .idle ∨ s.engine.st = .done)
include hst

/-- R224: UPDATE raises BAD_STATE with its word. -/
theorem exec_update_badState (data : Byte) :
    exec (.update data) s = .next (raiseFault .badState (encode (.update data)) s) := by
  obtain h | h := hst <;> simp only [exec, execUpdate, h]

/-- R224: FINAL raises BAD_STATE with its word. -/
theorem exec_final_badState : exec .final s = .next (raiseFault .badState (encode .final) s) := by
  obtain h | h := hst <;> simp only [exec, execFinal, h]

end BadState

/-- R29, R33: once reset, a state other than DONE publishes no digest. -/
theorem no_digest_of_not_done {s : State} (hreset : s.phase ≠ .unreset) (hst : s.engine.st ≠ .done) :
    (ports s).digest = 0 ∧ digestValid s = false := by
  obtain ⟨-, hdone, -⟩ | ⟨hvalid, hzero⟩ := digest_published_or_zero hreset
  · exact absurd hdone hst
  · exact ⟨hzero, hvalid⟩

/-- R224: a fault withdraws the digest. -/
theorem no_digest_after_raiseFault (code : FaultCode) (w : CmdWord) {s : State} (hready : s.phase = .ready) :
    (ports (raiseFault code w s)).digest = 0 ∧ digestValid (raiseFault code w s) = false := by
  refine no_digest_of_not_done ?_ ?_ <;> simp [raiseFault, hready]

/-- R181: outside FAULT, ABORT abandons the operation. -/
theorem exec_abort_outside_fault {s : State} (hst : s.engine.st ≠ .fault) :
    exec .abort s = .next (s.withEngine (abandonOperation s.engine)) := by
  simp only [exec, execAbort]
  split
  case h_1 hfault => exact absurd hfault hst
  all_goals rfl

/-- R224: INIT never ends in FAULT. -/
theorem exec_init_st {s t : State} (h : exec .init s = .next t) : t.engine.st = .absorb := by
  cases h
  rfl

/-- R224, R228: ABORT ends in FAULT only where it is ignored there. -/
theorem exec_abort_fault {s t : State} (h : exec .abort s = .next t) (ht : t.engine.st = .fault) : t = s := by
  by_cases hst : s.engine.st = .fault
  · rw [exec_ignored (by decide) hst] at h
    cases h
    rfl
  · rw [exec_abort_outside_fault hst] at h
    cases h
    simp at ht

/-- Settles O13: in IDLE and DONE both commands raise the fault, which withdraws the digest; INIT ends in ABSORB, and
ABORT outside FAULT in IDLE. -/
theorem updateAndFinalOutsideAbsorbFault : Obligations.UpdateAndFinalOutsideAbsorbFault := by
  refine ⟨fun s hst => ⟨fun data => ?_, exec_final_badState hst, fun t hexec hready => ?_⟩, fun s t hexec ht => ?_⟩
  · rw [exec_update_badState hst, encode_update]
    rfl
  · obtain ⟨data, hupdate⟩ | hfinal := hexec
    · rw [exec_update_badState hst] at hupdate
      cases hupdate
      exact no_digest_after_raiseFault _ _ hready
    · rw [exec_final_badState hst] at hfinal
      cases hfinal
      exact no_digest_after_raiseFault _ _ hready
  · obtain hinit | habort := hexec
    · simp [exec_init_st hinit] at ht
    · exact exec_abort_fault habort ht

end Sys2Proof.Machine
end

section
/-! A word presented in FAULT: ignored unless it is INIT's, with STATUS showing the first fault (R228). -/

namespace Sys2Proof.Machine

/-- R75: INIT has the one word 0x1000. -/
theorem eq_of_decode_init {w : CmdWord} (hdecode : decode w = .legal .init) : w = 0x1000 := by
  by_contra hw
  by_cases hop : w.toNat / 4096 = 1
  · simp [decode_malformed_init hop hw] at hdecode
  · rw [decodeFollowsTheListing w _ _ _ rfl rfl rfl, if_neg hop] at hdecode
    split_ifs at hdecode <;> cases hdecode

/-- R254: a word presented to a ready engine is accepted at the next edge. -/
theorem step_of_presents {s : State} {w : CmdWord} {rest : List HostMove} (h : Presents s w rest) :
    step s = acceptWord w { s with host := rest } := by
  obtain ⟨hready, hhost⟩ := h
  simp only [step, clockEdge, hhost, presentCommand, hready]

/-- R228: in FAULT, an accepted word other than 0x1000 changes the handshake phase alone. -/
theorem acceptWord_ignored {s : State} {w : CmdWord} (hst : s.engine.st = .fault) (hw : w ≠ 0x1000) :
    acceptWord w s = .next (holdBusy (latencyOf s.lat s.engine w) (shown s.engine) s) := by
  rw [acceptWord]
  cases hdecode : decode w with
  | illegal code => simp only [illegalWord, if_pos hst]
  | legal i =>
    have hi : i ≠ .init := fun h => hw (eq_of_decode_init (h ▸ hdecode))
    simp only [exec_ignored hi hst]

/-- R257: between equal values there is nothing to draw. -/
@[simp] theorem drawShown_self (n : Nat) (f : Shown) : drawShown n f f = f := by
  simp only [drawShown, ite_self]

/-- R257: after a command that left the tuple alone, STATUS shows its fields, during the latency and after it. -/
theorem status_holdBusy_unchanged {s : State} (n : Nat) (hrst : rstHigh (holdBusy n (shown s.engine) s) = false) :
    ∃ v b, (ports (holdBusy n (shown s.engine) s)).status = statusWord v b (shown s.engine) := by
  cases n with
  | zero => exact ⟨_, _, by rw [ports_ready hrst rfl]; rfl⟩
  | succ more => exact ⟨_, _, by rw [ports_busy hrst rfl, holdBusy_engine, drawShown_self]; rfl⟩

/-- Settles O14: the commands and the word are ignored; STATUS is that of the unchanged tuple. -/
theorem faultIgnoresEveryWordButInit : Obligations.FaultIgnoresEveryWordButInit := by
  refine ⟨fun s hst => ⟨fun data => exec_ignored (by simp) hst, exec_ignored (by decide) hst,
    exec_ignored (by decide) hst⟩, fun s w rest hpresents hst hw => ?_⟩
  have hstep := (step_of_presents hpresents).trans (acceptWord_ignored hst hw)
  refine ⟨_, hstep, rfl, rfl, fun hrst => ?_⟩
  obtain ⟨v, b, hstatus⟩ := status_holdBusy_unchanged _ hrst
  rw [hstatus, statusWord_st, statusWord_fcode, statusWord_fcmd, shown_st, hst]
  exact ⟨rfl, rfl, rfl⟩

end Sys2Proof.Machine
end

section
/-! The meaning of an accepted word is R182's function (R75, R182). -/

namespace Sys2Proof

/-- R70: a word with RSV = 0000 is the command word of its OP and DATA fields. -/
theorem commandWord_opField_dataField {w : CmdWord} (hrsv : rsvField w = 0) :
    commandWord (opField w) (dataField w) = w :=
  word_eq_of_fields (opField_commandWord ..) (by rw [rsvField_commandWord, hrsv]) (dataField_commandWord ..)

/-- R75: the only word that decodes to a command is its own. -/
theorem encode_of_decode {w : CmdWord} {i : Instr} (h : decode w = .legal i) : encode i = w := by
  rw [decode] at h
  split_ifs at h with hop hrsv hupdate hdata hinit hfinal <;> cases h <;>
    refine Eq.trans ?_ (commandWord_opField_dataField (not_not.mp hrsv))
  · rw [encode, hupdate]
  · rw [encode, hinit, not_not.mp hdata]
  · rw [encode, hfinal, not_not.mp hdata]
  · have habort : opField w = 0x4 := by
      simpa only [assignedOp, Bool.or_eq_true, beq_iff_eq, hupdate, hinit, hfinal, false_or] using hop
    rw [encode, habort, not_not.mp hdata]

end Sys2Proof

namespace Sys2Proof.Machine

/-- R27: outside FAULT and ABSORB, ST is IDLE or DONE. -/
theorem idle_or_done {st : Lifecycle} (hfault : st ≠ .fault) (habsorb : st ≠ .absorb) : st = .idle ∨ st = .done := by
  cases st with
  | idle => exact .inl rfl
  | absorb => exact absurd rfl habsorb
  | done => exact .inr rfl
  | fault => exact absurd rfl hfault

variable {s : State} {w : CmdWord} {i : Instr}

/-- R182, R228: in FAULT, a legal word's command gives the tuple of R182's function. -/
theorem exec_eq_commandStep_of_fault (hdecode : decode w = .legal i) (hst : s.engine.st = .fault) :
    exec i s = .next (s.withEngine (commandStep s.engine w)) := by
  by_cases hw : w = 0x1000
  · subst hw
    cases hdecode
    rw [commandStep, if_pos hst, if_pos rfl]
    rfl
  · have hi : i ≠ .init := fun h => hw (eq_of_decode_init (h ▸ hdecode))
    rw [exec_ignored hi hst, commandStep_ignored hst hw, withEngine_self]

/-- R182: outside FAULT, a legal word's command gives the tuple of R182's function; the word that BAD_STATE records is
the command's own. -/
theorem exec_eq_commandStep_outside_fault (hdecode : decode w = .legal i) (hst : s.engine.st ≠ .fault) :
    exec i s = .next (s.withEngine (commandStep s.engine w)) := by
  have hword := encode_of_decode hdecode
  cases i with
  | init =>
    rw [commandStep_init hst hdecode]
    rfl
  | abort => rw [exec_abort_outside_fault hst, commandStep_abort hst hdecode]
  | update data =>
    by_cases habsorb : s.engine.st = .absorb
    · rw [exec_update_absorb data habsorb, commandStep_update hst hdecode, if_pos habsorb]
    · rw [exec_update_badState (idle_or_done hst habsorb), hword,
        commandStep_badState (.inl ⟨data, hdecode⟩) hst habsorb]
      rfl
  | final =>
    by_cases habsorb : s.engine.st = .absorb
    · rw [exec_final_absorb habsorb, commandStep_final hst hdecode, if_pos habsorb]
    · rw [exec_final_badState (idle_or_done hst habsorb), hword, commandStep_badState (.inr hdecode) hst habsorb]
      rfl

/-- R182: a legal word's command gives the tuple of R182's function, in every ST. -/
theorem exec_eq_commandStep (hdecode : decode w = .legal i) :
    exec i s = .next (s.withEngine (commandStep s.engine w)) := by
  by_cases hst : s.engine.st = .fault
  · exact exec_eq_commandStep_of_fault hdecode hst
  · exact exec_eq_commandStep_outside_fault hdecode hst

/-- R226, R228: so does an illegal word. -/
theorem illegalWord_eq_commandStep {code : FaultCode} (hdecode : decode w = .illegal code) :
    illegalWord code w s = s.withEngine (commandStep s.engine w) := by
  rw [illegalWord]
  by_cases hst : s.engine.st = .fault
  · have hw : w ≠ 0x1000 := by
      rintro rfl
      cases hdecode
    rw [if_pos hst, commandStep_ignored hst hw, withEngine_self]
  · rw [if_neg hst, commandStep_illegal hst hdecode, raiseFault]

/-- R182, R256: accepting a word, legal or not, gives the tuple of R182's function and holds `cmd_ready` low for the
word's latency. -/
theorem acceptWord_eq_commandStep (w : CmdWord) (s : State) :
    acceptWord w s =
      .next (holdBusy (latencyOf s.lat s.engine w) (shown s.engine) (s.withEngine (commandStep s.engine w))) := by
  rw [acceptWord]
  cases hdecode : decode w with
  | illegal code => simp only [illegalWord_eq_commandStep hdecode]
  | legal i => simp only [exec_eq_commandStep hdecode]

end Sys2Proof.Machine
end

section
/-! The cycles of a command's latency, whatever the host does in them short of a reset (R255, R256). -/

namespace Sys2Proof.Machine

/-- No step is taken. -/
theorem runSteps_zero (s : State) : runSteps 0 s = .next s := rfl

/-- A run begins with its first step. -/
theorem runSteps_succ_of_step {s t : State} (n : Nat) (h : step s = .next t) : runSteps (n + 1) s = runSteps n t := by
  have hcore : Sys2Proof.core.step s = .next t := h
  change Sys2Proof.core.run (n + 1) s = Sys2Proof.core.run n t
  simp only [Host.Core.run, hcore]

/-- R256: an accepted command, which found the fields `before` and leaves the tuple `after`, has `n` cycles of its latency
to go, this one included, and the host has no reset to come. With `n` = 0 the command is complete. -/
structure Completing (n : Nat) (before : Shown) (after : Engine) (s : State) : Prop where
  phase : s.phase = busyFor n before
  engine : s.engine = after
  noReset : ∀ m ∈ s.host, m ≠ .reset

variable {s : State} {n : Nat} {before : Shown} {after : Engine}

/-- R256: a quiet edge brings the command one cycle nearer to its completion. -/
theorem Completing.after_quietEdge (h : Completing (n + 1) before after s) :
    Completing n before after (quietEdge s) where
  phase := by rw [quietEdge_busy h.phase]
  engine := by rw [quietEdge_engine, h.engine]
  noReset := by
    rw [quietEdge_host]
    exact h.noReset

/-- R255, R256: so does every step of a busy engine: an idle host and a waiting word leave the edge quiet. -/
theorem Completing.after_step (h : Completing (n + 1) before after s) :
    ∃ t, step s = .next t ∧ Completing n before after t := by
  have hbusy : s.phase = .busy n before := h.phase
  cases hhost : s.host with
  | nil => exact ⟨_, by simp only [step, clockEdge, hhost], h.after_quietEdge⟩
  | cons m rest =>
    cases m with
    | reset => exact absurd rfl (h.noReset .reset (by simp [hhost]))
    | idle =>
      have hrest : Completing (n + 1) before after { s with host := rest } :=
        ⟨h.phase, h.engine, fun m hm => h.noReset m (by simp [hhost, hm])⟩
      exact ⟨_, by simp only [step, clockEdge, hhost], hrest.after_quietEdge⟩
    | command w => exact ⟨_, by simp only [step, clockEdge, hhost, presentCommand, hbusy], h.after_quietEdge⟩

/-- R256: after `j` of its cycles, the command has the others to go. -/
theorem Completing.after_runSteps {j : Nat} (h : Completing (j + n) before after s) :
    ∃ t, runSteps j s = .next t ∧ Completing n before after t := by
  induction j generalizing s with
  | zero => exact ⟨s, runSteps_zero s, by rwa [Nat.zero_add] at h⟩
  | succ j ih =>
    rw [Nat.add_right_comm] at h
    obtain ⟨u, hstep, hu⟩ := h.after_step
    obtain ⟨t, hrun, ht⟩ := ih hu
    exact ⟨t, by rw [runSteps_succ_of_step j hstep, hrun], ht⟩

/-- R254, R256: an accepted word has its whole latency to go, and what it leaves is the tuple of R182's function. -/
theorem Presents.completing_after_step {w : CmdWord} {rest : List HostMove} (h : Presents s w rest)
    (hrest : ∀ m ∈ rest, m ≠ .reset) :
    ∃ t, step s = .next t ∧
      Completing (latencyOf s.lat s.engine w) (shown s.engine) (commandStep s.engine w) t :=
  ⟨_, (step_of_presents h).trans (acceptWord_eq_commandStep _ _), rfl, rfl, hrest⟩

/-- R256: `j` cycles after its acceptance edge, a word has the rest of its latency to go. -/
theorem Presents.completing_after_runSteps {w : CmdWord} {rest : List HostMove} {j : Nat} (h : Presents s w rest)
    (hrest : ∀ m ∈ rest, m ≠ .reset) (hlatency : latencyOf s.lat s.engine w = j + n) :
    ∃ t, runSteps (j + 1) s = .next t ∧ Completing n (shown s.engine) (commandStep s.engine w) t := by
  obtain ⟨u, hstep, hu⟩ := h.completing_after_step hrest
  rw [hlatency] at hu
  obtain ⟨t, hrun, ht⟩ := hu.after_runSteps
  exact ⟨t, by rw [runSteps_succ_of_step j hstep, hrun], ht⟩

end Sys2Proof.Machine
end

section
/-! What the ports show of a command in progress, and of a completed one (R257). -/

namespace Sys2Proof.Machine

section DrawShown

variable (n : Nat) (before after : Shown)

theorem drawShown_st : (drawShown n before after).st = before.st ∨ (drawShown n before after).st = after.st :=
  (ite_eq_or_eq _ _ _).symm

theorem drawShown_fcode :
    (drawShown n before after).fcode = before.fcode ∨ (drawShown n before after).fcode = after.fcode :=
  (ite_eq_or_eq _ _ _).symm

theorem drawShown_nbuf : (drawShown n before after).nbuf = before.nbuf ∨ (drawShown n before after).nbuf = after.nbuf :=
  (ite_eq_or_eq _ _ _).symm

theorem drawShown_fcmd : (drawShown n before after).fcmd = before.fcmd ∨ (drawShown n before after).fcmd = after.fcmd :=
  (ite_eq_or_eq _ _ _).symm

end DrawShown

variable {s : State} {n : Nat} {before : Shown} {after : Engine}

/-- R257: while the command is in progress the ports are gated, and STATUS shows a draw between old and new fields. -/
theorem Completing.ports_eq_busyPorts (h : Completing (n + 1) before after s) :
    ports s = busyPorts (drawShown s.draws before (shown after)) := by
  rw [ports_busy (rstHigh_of_no_reset h.noReset) h.phase, h.engine]

/-- R257: when the command is complete the ports show its tuple. -/
theorem Completing.ports_eq_readyPorts (h : Completing 0 before after s) : ports s = readyPorts after := by
  rw [ports_ready (rstHigh_of_no_reset h.noReset) h.phase, h.engine]

/-- Settles O26: every cycle of the latency finds the command in progress, where the ports are gated and each field is
drawn between its old and its new value; the cycle after the last finds it complete. -/
theorem busyPortsHideTheCommand : Obligations.BusyPortsHideTheCommand := by
  refine ⟨fun s w rest j hpresents hrest hj => ?_, fun s w rest hpresents hrest => ?_⟩
  · obtain ⟨n, hlatency⟩ : ∃ n, latencyOf s.lat s.engine w = j + (n + 1) := Nat.exists_eq_add_of_lt hj
    obtain ⟨t, hrun, ht⟩ := hpresents.completing_after_runSteps hrest hlatency
    refine ⟨t, hrun, ?_⟩
    rw [ht.ports_eq_busyPorts, busyPorts, statusWord_st, statusWord_fcode, statusWord_nbuf, statusWord_fcmd]
    exact ⟨rfl, statusWord_busy .., statusWord_valid .., rfl,
      (drawShown_st ..).imp (congrArg Lifecycle.bits) (congrArg Lifecycle.bits),
      drawShown_fcode .., drawShown_nbuf .., drawShown_fcmd ..⟩
  · obtain ⟨t, hrun, ht⟩ := hpresents.completing_after_runSteps hrest (Nat.add_zero _).symm
    refine ⟨t, hrun, ?_⟩
    rw [ht.ports_eq_readyPorts, readyPorts]
    exact ⟨statusWord_busy .., statusWord_st .., statusWord_fcode .., statusWord_nbuf .., statusWord_fcmd ..⟩

end Sys2Proof.Machine
end

section
/-! The encoder and the decoder are inverse to each other (R73, R76). -/

namespace Sys2Proof

/-- R76: every command's own word decodes to it, with its operand. -/
@[simp] theorem decode_encode (i : Instr) : decode (encode i) = .legal i := by
  cases i <;> simp [decode, encode, assignedOp]

/-- R75: the legal words are the commands' own. -/
theorem decode_eq_legal_iff {w : CmdWord} {i : Instr} : decode w = .legal i ↔ encode i = w :=
  ⟨encode_of_decode, fun h => h ▸ decode_encode i⟩

/-- Different commands have different words. -/
theorem encode_injective : Function.Injective encode := by
  intro i j h
  have hdecode := congrArg decode h
  rw [decode_encode, decode_encode] at hdecode
  exact Decoded.legal.inj hdecode

/-- Settles O20: the decoder reads back the encoder's fields, and a legal word is made of its fields. -/
theorem decodeInvertsEncode : Obligations.DecodeInvertsEncode :=
  ⟨fun i _ => decode_encode i, fun _ _ => encode_of_decode⟩

end Sys2Proof
end


section
/-! What Compress reads of the buffer: the 64 bytes of the block, as a list (R52, R100). -/

namespace Sys2Proof.Machine

/-- Buffers that agree on a range read the same there. -/
theorem readBytes_congr {m m' : Memory} {k n : Nat} (h : ∀ t < n, readByte m (k + t) = readByte m' (k + t)) :
    readBytes m k n = readBytes m' k n :=
  List.map_congr_left fun t ht => h t (List.mem_range.mp ht)

/-- A part of the bytes read is the bytes of a part. -/
theorem take_drop_readBytes (m : Memory) (k : Nat) {n a b : Nat} (h : a + b ≤ n) :
    ((readBytes m k n).drop a).take b = readBytes m (k + a) b := by
  apply List.ext_getElem
  · rw [List.length_take, List.length_drop, readBytes_length, readBytes_length]
    omega
  · intro t _ _
    simp [readBytes, Nat.add_assoc]

/-- R52: X[j] is the j-th word of the listed block. -/
theorem messageWord_eq_listWord (m : Memory) : messageWord m = listWord (readBytes m 0 64) := by
  funext j
  rw [listWord, take_drop_readBytes m 0 (by omega), Nat.zero_add, messageWord, memRead]

/-- R100: Compress is a function of the accumulator and the 64 listed bytes. -/
theorem compress_eq_compressWords (acc : Acc) (m : Memory) :
    compress acc m = compressWords acc (listWord (readBytes m 0 64)) := by
  rw [compress, messageWord_eq_listWord]

/-- Settles O40: Compress is a function of the listed block. -/
theorem compressReadsOnlyTheBlock : Obligations.CompressReadsOnlyTheBlock := by
  intro acc m m' h
  have hblock : readBytes m 0 64 = readBytes m' 0 64 :=
    readBytes_congr fun t ht => by simpa using h t ht
  rw [compress_eq_compressWords, hblock, ← compress_eq_compressWords]

end Sys2Proof.Machine
end

section
/-! R182's function by the ST it finds: which of the tuple's operations a word stands for (R182). -/

namespace Sys2Proof.Machine

/-- R180: 0x1000 gives the fresh tuple in every ST. -/
theorem commandStep_init_word (e : Engine) : commandStep e 0x1000 = freshOperation := by
  by_cases hst : e.st = .fault
  · rw [commandStep, if_pos hst, if_pos rfl]
  · exact commandStep_init hst rfl

/-- R222, R223: the decoder raises codes 1 and 2 alone. -/
theorem decode_code_le {w : CmdWord} {code : FaultCode} (h : decode w = .illegal code) : code.bits.toNat ≤ 3 := by
  rw [decode] at h
  split_ifs at h <;> cases h <;> decide

/-- R182: the operations on the tuple that the word `w` may stand for when it finds ST = `st`. -/
inductive Effect (w : CmdWord) : Lifecycle → (Engine → Engine) → Prop where
  | ignored : Effect w .fault id
  | opens (st : Lifecycle) : Effect w st fun _ => freshOperation
  | faults {st : Lifecycle} {code : FaultCode} (hst : st ≠ .fault) (hcode : code.bits.toNat ≤ 3) :
      Effect w st (faultEntry code w)
  | abandons {st : Lifecycle} (hst : st ≠ .fault) : Effect w st abandonOperation
  | absorbs (data : Byte) : Effect w .absorb (absorbByte data)
  | finishes : Effect w .absorb finishMessage

/-- R182: ST and the word fix one operation, which is what R182's function does to every tuple with that ST. -/
theorem exists_effect (st : Lifecycle) (w : CmdWord) :
    ∃ op, Effect w st op ∧ ∀ e : Engine, e.st = st → commandStep e w = op e := by
  by_cases hfault : st = .fault
  · subst hfault
    by_cases hw : w = 0x1000
    · exact ⟨_, .opens _, fun e _ => by rw [hw, commandStep_init_word]⟩
    · exact ⟨_, .ignored, fun e he => commandStep_ignored he hw⟩
  cases hdecode : decode w with
  | illegal code =>
    exact ⟨_, .faults hfault (decode_code_le hdecode), fun e he => commandStep_illegal (he ▸ hfault) hdecode⟩
  | legal i =>
    cases i with
    | init => exact ⟨_, .opens st, fun e he => commandStep_init (he ▸ hfault) hdecode⟩
    | abort => exact ⟨_, .abandons hfault, fun e he => commandStep_abort (he ▸ hfault) hdecode⟩
    | update data =>
      by_cases habsorb : st = .absorb
      · subst habsorb
        exact ⟨_, .absorbs data, fun e he => by rw [commandStep_update (he ▸ hfault) hdecode, if_pos he]⟩
      · exact ⟨_, .faults (code := .badState) hfault (by decide), fun e he =>
          commandStep_badState (.inl ⟨data, hdecode⟩) (he ▸ hfault) (he ▸ habsorb)⟩
    | final =>
      by_cases habsorb : st = .absorb
      · subst habsorb
        exact ⟨_, .finishes, fun e he => by rw [commandStep_final (he ▸ hfault) hdecode, if_pos he]⟩
      · exact ⟨_, .faults (code := .badState) hfault (by decide), fun e he =>
          commandStep_badState (.inr hdecode) (he ▸ hfault) (he ▸ habsorb)⟩

/-- Every operation keeps the buffer's canonical form. -/
theorem Effect.buf_wf {w : CmdWord} {st : Lifecycle} {op : Engine → Engine} (hop : Effect w st op) {e : Engine}
    (h : e.buf.wf = true) : (op e).buf.wf = true := by
  cases hop with
  | ignored | faults | abandons => exact h
  | opens => rfl
  | absorbs data => exact absorbByte_wf data h
  | finishes => exact finishMessage_wf h

/-- R182's function keeps the buffer's canonical form. -/
theorem commandStep_wf {e : Engine} (w : CmdWord) (h : e.buf.wf = true) : (commandStep e w).buf.wf = true := by
  obtain ⟨op, hop, hstep⟩ := exists_effect e.st w
  rw [hstep e rfl]
  exact hop.buf_wf h

end Sys2Proof.Machine
end

section
/-! Stale bytes of BUF (R142): tuples that differ in them alone go on differing in them alone. -/

namespace Sys2Proof.Machine

theorem StaleEquivalent.refl (e : Engine) : StaleEquivalent e e := ⟨rfl, rfl, rfl, rfl, rfl, rfl, fun _ _ => rfl⟩

namespace StaleEquivalent

variable {e f : Engine} (h : StaleEquivalent e f)
include h

/-- What the ports show is no part of BUF. -/
theorem readyPorts_eq : readyPorts e = readyPorts f := by
  rw [readyPorts, readyPorts, shown, shown, h.st, h.nbuf, h.fcode, h.fcmd, h.acc]

theorem bitLength_eq : bitLength e = bitLength f := by
  rw [bitLength, bitLength, messageLength, messageLength, h.len, h.nbuf]

theorem after_faultEntry (code : FaultCode) (w : CmdWord) :
    StaleEquivalent (faultEntry code w e) (faultEntry code w f) :=
  ⟨h.acc, h.nbuf, h.len, rfl, rfl, rfl, h.live⟩

theorem after_abandonOperation : StaleEquivalent (abandonOperation e) (abandonOperation f) :=
  ⟨h.acc, rfl, h.len, rfl, h.fcode, h.fcmd, fun _ hk => absurd hk (Nat.not_lt_zero _)⟩

section Canonical

variable (he : e.buf.wf = true) (hf : f.buf.wf = true)
include he hf

/-- A byte written at NBUF is live, and the live bytes below it stay. -/
theorem writeAtNbuf_live (v : Byte) {k : Nat} (hk : k < e.nbuf.toNat + 1) :
    readByte (writeAtNbuf e v) k = readByte (writeAtNbuf f v) k := by
  rw [readByte_writeAtNbuf v he, readByte_writeAtNbuf v hf, h.nbuf]
  refine ite_congr rfl (fun _ => rfl) fun hne => h.live k ?_
  rw [h.nbuf] at hk ⊢
  omega

/-- R141: the block that a byte completes has no stale byte. -/
theorem after_absorbByte (data : Byte) : StaleEquivalent (absorbByte data e) (absorbByte data f) := by
  by_cases hfills : e.nbuf.toNat + 1 = 64
  · have hacc := compressReadsOnlyTheBlock f.acc _ _ (hfills ▸ fun k => h.writeAtNbuf_live he hf data (k := k))
    rw [absorbByte_fills data hfills, absorbByte_fills data (h.nbuf ▸ hfills)]
    exact ⟨(congrArg (compress · _) h.acc).trans hacc, rfl, by simp only [h.len], h.st, h.fcode, h.fcmd,
      fun _ hk => absurd hk (Nat.not_lt_zero _)⟩
  · rw [absorbByte_below data hfills, absorbByte_below data (h.nbuf ▸ hfills)]
    refine ⟨h.acc, by simp only [h.nbuf], h.len, h.st, h.fcode, h.fcmd, fun k hk => h.writeAtNbuf_live he hf data ?_⟩
    exact hk.trans_le (by simpa using Nat.mod_le _ _)

/-- R162, R163: the padding overwrites every stale byte. -/
theorem padMark_eq {k : Nat} (hk : k < 64) : readByte (padMark e) k = readByte (padMark f) k := by
  rw [readByte_padMark he hk, readByte_padMark hf hk, h.nbuf]
  exact ite_congr rfl (fun hlive => h.live k (h.nbuf ▸ hlive)) fun _ => rfl

/-- R160: the digest is compressed from blocks without a stale byte. -/
theorem finishMessage_acc : (finishMessage e).acc = (finishMessage f).acc := by
  by_cases hrem : e.nbuf.toNat < 56
  · have hremf : f.nbuf.toNat < 56 := h.nbuf ▸ hrem
    rw [finishMessage_acc_of_single hrem, finishMessage_acc_of_single hremf, h.acc]
    refine compressReadsOnlyTheBlock _ _ _ fun k hk => ?_
    rw [readByte_finishMessage_single hrem he hk, readByte_finishMessage_single hremf hf hk, h.nbuf, h.bitLength_eq]
    exact ite_congr rfl (fun hlive => h.live k (h.nbuf ▸ hlive)) fun _ => rfl
  · have hremf : ¬ f.nbuf.toNat < 56 := h.nbuf ▸ hrem
    rw [finishMessage_acc_of_double hrem, finishMessage_acc_of_double hremf, h.acc,
      compressReadsOnlyTheBlock _ _ _ fun k hk => h.padMark_eq he hf hk]
    refine compressReadsOnlyTheBlock _ _ _ fun k hk => ?_
    rw [readByte_finishMessage_double hrem he hk, readByte_finishMessage_double hremf hf hk, h.bitLength_eq]

theorem after_finishMessage : StaleEquivalent (finishMessage e) (finishMessage f) := by
  refine ⟨h.finishMessage_acc he hf, ?_, ?_, ?_, ?_, ?_, ?_⟩ <;> simp [h.len, h.fcode, h.fcmd]

/-- R142: an operation done to both tuples keeps the relation. -/
theorem after_effect {w : CmdWord} {st : Lifecycle} {op : Engine → Engine} (hop : Effect w st op) :
    StaleEquivalent (op e) (op f) := by
  cases hop with
  | ignored => exact h
  | opens => exact .refl _
  | faults => exact h.after_faultEntry ..
  | abandons => exact h.after_abandonOperation
  | absorbs data => exact h.after_absorbByte he hf data
  | finishes => exact h.after_finishMessage he hf

/-- R142: R182's function does the same operation to both tuples. -/
theorem after_commandStep (w : CmdWord) : StaleEquivalent (commandStep e w) (commandStep f w) := by
  obtain ⟨op, hop, hstep⟩ := exists_effect e.st w
  rw [hstep e rfl, hstep f h.st.symm]
  exact h.after_effect he hf hop

end Canonical

end StaleEquivalent

/-- R142: so does a whole command program. -/
theorem StaleEquivalent.after_runCommands {e f : Engine} (h : StaleEquivalent e f) (he : e.buf.wf = true)
    (hf : f.buf.wf = true) (ws : List CmdWord) : StaleEquivalent (runCommands e ws) (runCommands f ws) := by
  induction ws generalizing e f with
  | nil => exact h
  | cons w ws ih => exact ih (h.after_commandStep he hf w) (commandStep_wf w he) (commandStep_wf w hf)

/-- Settles O33: the relation is kept by every command, and what it leaves open no port shows. -/
theorem staleBytesNeverShow : Obligations.StaleBytesNeverShow := by
  intro e f ws he hf h
  have hrun := h.after_runCommands he hf ws
  exact ⟨hrun, hrun.readyPorts_eq⟩

end Sys2Proof.Machine
end


section
/-! What a step can do to the tuple (R182, R250, R254). -/

namespace Sys2Proof.Machine

/-- What a step can do to the tuple: leave it alone, reset it, or apply R182's function to a word accepted. -/
theorem step_engine_cases {s t : State} (h : step s = .next t) :
    (t.engine = s.engine ∧ (s.phase = .unreset → t.phase = .unreset)) ∨
    (∃ rest, s.host = .reset :: rest ∧ t.engine = Engine.reset) ∨
    (∃ w rest, Presents s w rest ∧ t.engine = commandStep s.engine w) := by
  obtain ⟨-, rfl⟩ | ⟨rest, -, rfl⟩ | ⟨rest, hhost, rfl⟩ | ⟨w, rest, more, before, -, hbusy, rfl⟩ |
    ⟨w, rest, hhost, hready, haccept⟩ := step_next_cases h
  · exact .inl ⟨quietEdge_engine _, fun hp => by rwa [quietEdge_unreset hp]⟩
  · exact .inl ⟨quietEdge_engine _, fun hp => by rw [quietEdge_unreset]; exacts [hp, hp]⟩
  · exact .inr (.inl ⟨rest, hhost, rfl⟩)
  · exact .inl ⟨quietEdge_engine _, fun hp => by simp [hp] at hbusy⟩
  · rw [acceptWord_eq_commandStep] at haccept
    cases haccept
    exact .inr (.inr ⟨w, rest, ⟨hready, hhost⟩, rfl⟩)

end Sys2Proof.Machine
end

section
/-! R39's invariants, kept by every operation on the tuple and so by every step (R39, R182). -/

namespace Sys2Proof.Machine

/-- R221: no fault code is 0, so fault entry records a fault. -/
theorem faultEntry_fcode_ne_zero (code : FaultCode) (w : CmdWord) (e : Engine) : (faultEntry code w e).fcode ≠ 0 := by
  rw [faultEntry_fcode]
  cases code <;> decide

namespace Engine.Inv

variable {e : Engine}

/-- Outside FAULT the invariants say that no fault is recorded, beside the shape of BUF, LEN and NBUF. -/
theorem of_no_fault (hbuf : e.buf.wf = true) (hlen : e.len.toNat % 64 = 0) (hst : e.st ≠ .fault)
    (hempty : e.st = .absorb ∨ e.nbuf = 0) (hfcode : e.fcode = 0) (hfcmd : e.fcmd = 0) : e.Inv where
  bufWf := hbuf
  lenAligned := hlen
  idleEmpty := fun h => hempty.resolve_left (by simp [h])
  doneEmpty := fun h => hempty.resolve_left (by simp [h])
  faultCoded := ⟨fun h => absurd hfcode h, fun h => absurd h hst⟩
  noFaultNoWord := fun _ => hfcmd
  codeRaised := by simp [hfcode]

theorem of_reset : Engine.reset.Inv := of_no_fault rfl rfl (by decide) (.inr rfl) rfl rfl

theorem of_freshOperation : freshOperation.Inv := of_no_fault rfl rfl (by decide) (.inr rfl) rfl rfl

variable (h : e.Inv)
include h

/-- R28: outside FAULT no fault is recorded. -/
theorem no_record (hst : e.st ≠ .fault) : e.fcode = 0 ∧ e.fcmd = 0 := by
  have hfcode : e.fcode = 0 := by
    by_contra hcoded
    exact hst (h.faultCoded.mp hcoded)
  exact ⟨hfcode, h.noFaultNoWord hfcode⟩

theorem after_faultEntry {code : FaultCode} (w : CmdWord) (hcode : code.bits.toNat ≤ 3) :
    (faultEntry code w e).Inv := by
  have hcoded := faultEntry_fcode_ne_zero code w e
  exact ⟨h.bufWf, h.lenAligned, nofun, nofun, ⟨fun _ => rfl, fun _ => hcoded⟩, fun h0 => absurd h0 hcoded, hcode⟩

theorem after_abandonOperation (hst : e.st ≠ .fault) : (abandonOperation e).Inv := by
  obtain ⟨hfcode, hfcmd⟩ := h.no_record hst
  exact of_no_fault h.bufWf h.lenAligned (by simp) (.inr rfl) hfcode hfcmd

/-- R144: LEN counts whole blocks; 2^64 is a multiple of 64, so a wrap does not show. -/
theorem absorbByte_lenAligned (data : Byte) : (absorbByte data e).len.toNat % 64 = 0 := by
  have hlen := h.lenAligned
  by_cases hfills : e.nbuf.toNat + 1 = 64
  · rw [absorbByte_len_of_fills data hfills]
    omega
  · rw [absorbByte_below data hfills]
    exact hlen

theorem after_absorbByte (data : Byte) (hst : e.st = .absorb) : (absorbByte data e).Inv := by
  obtain ⟨hfcode, hfcmd⟩ := h.no_record (by simp [hst])
  exact of_no_fault (absorbByte_wf data h.bufWf) (h.absorbByte_lenAligned data) (by simp [hst])
    (.inl (by simpa using hst)) (by simpa using hfcode) (by simpa using hfcmd)

theorem after_finishMessage (hst : e.st = .absorb) : (finishMessage e).Inv := by
  obtain ⟨hfcode, hfcmd⟩ := h.no_record (by simp [hst])
  exact of_no_fault (finishMessage_wf h.bufWf) (by simpa using h.lenAligned) (by simp) (.inr finishMessage_nbuf)
    (by simpa using hfcode) (by simpa using hfcmd)

/-- R39: every operation that a word may stand for keeps the invariants. -/
theorem after_effect {w : CmdWord} {st : Lifecycle} {op : Engine → Engine} (hop : Effect w st op) (hst : e.st = st) :
    (op e).Inv := by
  cases hop with
  | ignored => exact h
  | opens => exact of_freshOperation
  | faults _ hcode => exact h.after_faultEntry w hcode
  | abandons hne => exact h.after_abandonOperation (hst ▸ hne)
  | absorbs data => exact h.after_absorbByte data hst
  | finishes => exact h.after_finishMessage hst

/-- R39: so does R182's function. -/
theorem after_commandStep (w : CmdWord) : (commandStep e w).Inv := by
  obtain ⟨op, hop, hstep⟩ := exists_effect e.st w
  rw [hstep e rfl]
  exact h.after_effect hop rfl

end Engine.Inv

/-- Settles O35: a step leaves the tuple alone, resets it, or applies R182's function. -/
theorem stepKeepsTheInvariant : Obligations.StepKeepsTheInvariant := by
  refine fun s t hs hstep => ⟨fun ht => ?_⟩
  obtain ⟨hengine, hunreset⟩ | ⟨rest, -, hengine⟩ | ⟨w, rest, ⟨hready, -⟩, hengine⟩ := step_engine_cases hstep
  · rw [hengine]
    exact hs.engineInv fun hs' => ht (hunreset hs')
  · rw [hengine]
    exact .of_reset
  · rw [hengine]
    exact (hs.engineInv (by simp [hready])).after_commandStep w

/-- Settles O36: the reset tuple records no fault and is empty. -/
theorem resetHasTheInvariant : Obligations.ResetHasTheInvariant := ⟨fun _ => .of_reset⟩

end Sys2Proof.Machine
end

section
/-! ST and the fault record: how they change, and how they do not (R28, R182, R229, R230). -/

namespace Sys2Proof.Machine

/-- R165: R182's function ends in DONE by FINAL in ABSORB alone. -/
theorem final_of_commandStep_done {e : Engine} {w : CmdWord} (h : (commandStep e w).st = .done) :
    e.st = .absorb ∧ w = 0x3000 := by
  obtain ⟨hst, -, heq⟩ | ⟨-, heq⟩ | ⟨-, code, heq⟩ | ⟨-, -, heq⟩ | ⟨hst, data, -, heq⟩ | ⟨hst, hdecode, -⟩ :=
    commandStep_cases e w
  case inr.inr.inr.inr.inr => exact ⟨hst, (encode_of_decode hdecode).symm⟩
  all_goals rw [heq] at h
  · simp [hst] at h
  · simp at h
  · simp at h
  · simp at h
  · simp [hst] at h

/-- Settles O37: DONE is left alone, or reached by the word that R182's function needs for it. -/
theorem doneOnlyThroughFinal : Obligations.DoneOnlyThroughFinal := by
  intro s t hstep ht
  obtain ⟨hengine, -⟩ | ⟨rest, -, hengine⟩ | ⟨w, rest, ⟨-, hhost⟩, hengine⟩ := step_engine_cases hstep
  · exact .inl ⟨hengine ▸ ht, hengine⟩
  · simp [hengine] at ht
  · rw [hengine] at ht
    obtain ⟨hst, rfl⟩ := final_of_commandStep_done ht
    exact .inr ⟨hst, rest, hhost⟩

/-- Settles O38: by induction on the words, none of which leads to DONE. -/
theorem noFinalNoDigest : Obligations.NoFinalNoDigest := by
  intro e ws he hws
  induction ws generalizing e with
  | nil => exact he
  | cons w ws ih =>
    rw [List.mem_cons, not_or] at hws
    exact ih _ (fun hdone => hws.1 (final_of_commandStep_done hdone).2.symm) hws.2

/-- Settles O16: in FAULT R182's function ignores every word but 0x1000. -/
theorem onlyInitAndResetLeaveFault : Obligations.OnlyInitAndResetLeaveFault := by
  intro s t hst hstep
  obtain ⟨hengine, -⟩ | ⟨rest, hhost, hengine⟩ | ⟨w, rest, ⟨-, hhost⟩, hengine⟩ := step_engine_cases hstep
  · exact .inl hengine
  · exact .inr (.inl ⟨rest, hhost, hengine⟩)
  · by_cases hw : w = 0x1000
    · subst hw
      rw [commandStep_init_word] at hengine
      rw [hengine]
      exact .inr (.inr ⟨rest, hhost, rfl, rfl, rfl, rfl, rfl, rfl⟩)
    · exact .inl (hengine.trans (commandStep_ignored hst hw))

/-- R28: R182's function keeps the fault record, clears it by INIT, or enters FAULT with the word. -/
theorem commandStep_record_cases (e : Engine) (w : CmdWord) :
    ((commandStep e w).fcode = e.fcode ∧ (commandStep e w).fcmd = e.fcmd) ∨
    (w = 0x1000 ∧ commandStep e w = freshOperation) ∨
    (e.st ≠ .fault ∧ ∃ code, commandStep e w = faultEntry code w e) := by
  obtain ⟨-, -, heq⟩ | ⟨hinit, heq⟩ | hfaults | ⟨-, -, heq⟩ | ⟨-, data, -, heq⟩ | ⟨-, -, heq⟩ := commandStep_cases e w
  case inr.inl => exact .inr (.inl ⟨hinit.elim id eq_of_decode_init, heq⟩)
  case inr.inr.inl => exact .inr (.inr hfaults)
  all_goals exact .inl (by simp [heq])

/-- Settles O17: the three ways of R182's function, and the reset edge. -/
theorem faultRecordKeepsTheFirstFault : Obligations.FaultRecordKeepsTheFirstFault := by
  intro s t hstep
  obtain ⟨hengine, -⟩ | ⟨rest, hhost, hengine⟩ | ⟨w, rest, ⟨-, hhost⟩, hengine⟩ := step_engine_cases hstep
  · rw [hengine]
    exact .inl ⟨rfl, rfl⟩
  · rw [hengine]
    exact .inr (.inl ⟨rfl, rfl, rest, .inl hhost⟩)
  · rw [hengine]
    obtain hkept | ⟨rfl, heq⟩ | ⟨hst, code, heq⟩ := commandStep_record_cases s.engine w
    · exact .inl hkept
    · rw [heq]
      exact .inr (.inl ⟨rfl, rfl, rest, .inr hhost⟩)
    · rw [heq]
      exact .inr (.inr ⟨hst, rfl, faultEntry_fcode_ne_zero code w _, rest, hhost⟩)

/-- R228: in FAULT, a word other than 0x1000 leaves ST. -/
theorem commandStep_fault_st {e : Engine} {w : CmdWord} (hst : e.st = .fault) (hw : decode w ≠ .legal .init) :
    (commandStep e w).st = .fault := by
  rw [commandStep_ignored hst (by rintro rfl; exact hw rfl), hst]

/-- R222, R223: an illegal word leads to FAULT from every ST. -/
theorem commandStep_illegal_st (e : Engine) {w : CmdWord} {code : FaultCode} (hdecode : decode w = .illegal code) :
    (commandStep e w).st = .fault := by
  by_cases hst : e.st = .fault
  · exact commandStep_fault_st hst (by simp [hdecode])
  · rw [commandStep_illegal hst hdecode, faultEntry_st]

/-- R224: UPDATE and FINAL lead to FAULT from every ST but ABSORB. -/
theorem commandStep_badState_st {e : Engine} {w : CmdWord}
    (hdecode : (∃ data, decode w = .legal (.update data)) ∨ decode w = .legal .final) (habsorb : e.st ≠ .absorb) :
    (commandStep e w).st = .fault := by
  by_cases hst : e.st = .fault
  · refine commandStep_fault_st hst ?_
    obtain ⟨data, h⟩ | h := hdecode <;> simp [h]
  · rw [commandStep_badState hdecode hst habsorb, faultEntry_st]

/-- Settles O18: each clause says what the word decodes to, and so the branch of R182's function. -/
theorem lifecycleTransitionTable : Obligations.LifecycleTransitionTable := by
  refine fun e w => ⟨?_, ?_, ?_, ?_, ?_, fun code hcode => commandStep_illegal_st e hcode⟩
  · rintro rfl
    rw [commandStep_init_word, freshOperation_st]
  · intro hst hw
    rw [commandStep_ignored hst hw, hst]
  · rintro hst rfl
    rw [commandStep_abort hst rfl, abandonOperation_st]
  · rintro data rfl
    rw [← encode_update]
    have hdecode := decode_encode (.update data)
    refine ⟨fun hst => ?_, commandStep_badState_st (.inl ⟨data, hdecode⟩)⟩
    rw [commandStep_update (by simp [hst]) hdecode, if_pos hst, absorbByte_st, hst]
  · rintro rfl
    have hdecode : decode 0x3000 = .legal .final := rfl
    refine ⟨fun hst => ?_, commandStep_badState_st (.inr hdecode)⟩
    rw [commandStep_final (by simp [hst]) hdecode, if_pos hst, finishMessage_st]

end Sys2Proof.Machine
end

section
/-! One edge by the host's next move, and the acceptance of a word (R250, R254, R255). -/

namespace Sys2Proof.Machine

section Step

variable {s : State} {w : CmdWord} {rest : List HostMove}

theorem step_of_host_nil (h : s.host = []) : step s = .next (quietEdge s) := by
  simp only [step, clockEdge, h]

theorem step_of_idle (h : s.host = .idle :: rest) : step s = .next (quietEdge { s with host := rest }) := by
  simp only [step, clockEdge, h]

theorem step_of_reset (h : s.host = .reset :: rest) : step s = .next (resetEdge { s with host := rest }) := by
  simp only [step, clockEdge, h]

/-- R255: a busy engine leaves the word presented. -/
theorem step_of_held {more : Nat} {before : Shown} (hbusy : s.phase = .busy more before)
    (h : s.host = .command w :: rest) : step s = .next (quietEdge s) := by
  simp only [step, clockEdge, h, presentCommand, hbusy]

/-- R252: before the first reset no command step is defined. -/
theorem step_of_early_command (hunreset : s.phase = .unreset) (h : s.host = .command w :: rest) :
    step s = .fault .commandBeforeReset := by
  simp only [step, clockEdge, h, presentCommand, hunreset]

/-- R182, R254, R256: a ready engine accepts the word with R182's function, and holds `cmd_ready` low for its
latency. -/
theorem Presents.step_eq (h : Presents s w rest) :
    step s = .next (holdBusy (latencyOf s.lat s.engine w) (shown s.engine)
      ({ s with host := rest }.withEngine (commandStep s.engine w))) :=
  (step_of_presents h).trans (acceptWord_eq_commandStep w _)

end Step

/-- Settles O6: the accepting step has R182's function for the tuple and `rest` for the host. -/
theorem acceptedWordFollowsTheCommandStep : Obligations.AcceptedWordFollowsTheCommandStep :=
  fun _ _ _ h => ⟨_, h.step_eq, rfl, rfl, rfl, rfl⟩

/-- Settles O29: each of the three edges is quiet. -/
theorem unacceptedCyclesKeepTheTuple : Obligations.UnacceptedCyclesKeepTheTuple :=
  ⟨fun s h => ⟨_, step_of_host_nil h, quietEdge_engine s, (quietEdge_host s).trans h⟩,
    fun _ _ h => ⟨_, step_of_idle h, quietEdge_engine _, quietEdge_host _⟩,
    fun s _ _ _ _ hbusy h => ⟨_, step_of_held hbusy h, quietEdge_engine s, quietEdge_host s⟩⟩

/-- Settles O52: with a word presented, `cmd_ready` is 1 exactly in the phase ready, where the step accepts it. -/
theorem acceptedExactlyWhenReady : Obligations.AcceptedExactlyWhenReady := by
  intro s w rest hreset hhost
  have hrst := rstHigh_command hhost
  cases hp : s.phase with
  | unreset => exact absurd hp hreset
  | ready =>
    rw [ports_ready hrst hp]
    exact ⟨_, Presents.step_eq ⟨hp, hhost⟩, fun _ => ⟨rfl, rfl⟩, nofun⟩
  | busy more before =>
    rw [ports_busy hrst hp]
    exact ⟨_, step_of_held hp hhost, nofun, fun _ => ⟨quietEdge_host s, quietEdge_engine s⟩⟩

/-- Settles O4: `exec` gives the tuple of R182's function, and the step is that state held busy. -/
theorem stepRunsTheDecodedCommand : Obligations.StepRunsTheDecodedCommand :=
  fun _ _ _ _ hready hhost hdecode => ⟨_, exec_eq_commandStep hdecode, Presents.step_eq ⟨hready, hhost⟩⟩

/-- The instruction read from a row's word is the one its bits decode to. -/
theorem decode_tableWord {nbits w : Nat} {i : Instr} (h : decodeTableWord nbits w = some i) :
    decode (tableWord nbits w) = .legal i := by
  rw [decodeTableWord] at h
  split at h
  · rename_i hdecode
    rw [hdecode, Option.some.inj h]
  · cases h

/-- Settles O5: the machine with the word placed is ready and presents it. -/
theorem stepRunsTheFetchWord : Obligations.StepRunsTheFetchWord :=
  fun s nbits w i h =>
    stepRunsTheDecodedCommand (s.withFetchWord nbits w) _ s.host i rfl rfl (decode_tableWord h)

end Sys2Proof.Machine
end

section
/-! The reset table, the reset edge, and the time before the first reset (R38, R250, R252). -/

namespace Sys2Proof.Machine

/-- R38: what a ready engine shows of the reset tuple. -/
theorem readyPorts_engineReset : readyPorts Engine.reset = { cmdReady := true, status := 0x00000000, digest := 0 } := by
  decide

/-- Settles O1: the reset tuple is written out in the model, and its ports are those of a ready engine. -/
theorem resetStateHoldsTheTable : Obligations.ResetStateHoldsTheTable :=
  ⟨rfl, fun _ _ => rfl, rfl, rfl, rfl, rfl, rfl, (ports_ready rfl rfl).trans readyPorts_engineReset⟩

/-- Settles O2: the reset edge leaves a ready engine with the reset tuple, which idles or accepts as any ready
engine. -/
theorem resetEdgeRestoresTheTable : Obligations.ResetEdgeRestoresTheTable := by
  intro s rest hhost
  refine ⟨ports_rst (rstHigh_reset hhost), _, step_of_reset hhost, rfl, rfl, rfl, fun _ _ => rfl, rfl, rfl, rfl, rfl,
    rfl, fun hrst => (ports_ready hrst rfl).trans readyPorts_engineReset, ?_, ?_⟩
  · exact fun rest' hidle => ⟨_, step_of_idle hidle, quietEdge_host _, quietEdge_engine _⟩
  · exact fun w rest' hcommand => ⟨_, Presents.step_eq ⟨rfl, hcommand⟩, rfl, rfl⟩

/-- Settles O3: the edge of each move in the phase before the first reset. -/
theorem noCommandBeforeTheFirstReset : Obligations.NoCommandBeforeTheFirstReset := by
  intro s hunreset
  refine ⟨fun w rest hhost => step_of_early_command hunreset hhost, fun rest e hhost => ?_, fun rest hhost => ?_⟩
  · rw [step_of_reset hhost, step_of_reset (s := s.withEngine e) hhost]
    rfl
  · refine ⟨_, step_of_idle hhost, quietEdge_engine _, ?_⟩
    rw [quietEdge_unreset]
    · exact hunreset
    · exact hunreset

end Sys2Proof.Machine
end

section
/-! The draw counter (R257), and the fields of STATUS (R33). -/

namespace Sys2Proof.Machine

/-- R257: a quiet edge out of a busy cycle advances the draw counter. -/
theorem quietEdge_draws_of_busy {s : State} {more : Nat} {before : Shown} (h : s.phase = .busy more before) :
    (quietEdge s).draws = s.draws + 1 := by
  rw [quietEdge_busy h]

theorem draws_le_quietEdge (s : State) : s.draws ≤ (quietEdge s).draws := by
  rw [quietEdge]
  split
  · exact Nat.le_succ _
  · exact le_rfl
  · exact Nat.le_succ _

/-- Settles O53: quiet edges and reset edges out of a busy cycle advance the counter, and no other edge leaves one. -/
theorem everyBusyCycleDrawsAnew : Obligations.EveryBusyCycleDrawsAnew := by
  intro s t hstep
  obtain ⟨-, rfl⟩ | ⟨rest, -, rfl⟩ | ⟨rest, -, rfl⟩ | ⟨-, -, -, -, -, -, rfl⟩ | ⟨w, rest, hhost, hready, -⟩ :=
    step_next_cases hstep
  · exact ⟨draws_le_quietEdge s, fun _ _ => quietEdge_draws_of_busy⟩
  · exact ⟨draws_le_quietEdge { s with host := rest },
      fun _ _ h => quietEdge_draws_of_busy (s := { s with host := rest }) h⟩
  · exact ⟨Nat.le_succ _, fun _ _ _ => rfl⟩
  · exact ⟨draws_le_quietEdge s, fun _ _ => quietEdge_draws_of_busy⟩
  · rw [Presents.step_eq ⟨hready, hhost⟩] at hstep
    cases hstep
    exact ⟨le_rfl, fun _ _ hbusy => by simp [hready] at hbusy⟩

/-- Settles O24: the fields of the status word, on a ready engine's tuple and on a busy one's draw. -/
theorem statusLayout : Obligations.StatusLayout := by
  intro s hreset
  obtain hready | ⟨f, hbusy⟩ := ports_ready_or_busy hreset
  · rw [hready, readyPorts]
    dsimp only
    rw [statusWord_busy, statusWord_valid, statusWord_st, statusWord_fcode, statusWord_nbuf, statusWord_fcmd]
    refine ⟨statusWord_reserved .., rfl, by simp, fun _ => ⟨?_, rfl, rfl, rfl⟩⟩
    rw [shown_st]
    cases s.engine.st <;> rfl
  · rw [hbusy, busyPorts]
    dsimp only
    rw [statusWord_busy, statusWord_valid]
    exact ⟨statusWord_reserved .., rfl, by simp, nofun⟩

end Sys2Proof.Machine
end

section
/-! The completion of an accepted word and the end of a run (R79, R256, R259). -/

namespace Sys2Proof.Machine

section Completing

variable {s : State} {n : Nat} {before : Shown} {after : Engine} (h : Completing n before after s)
include h

/-- R256: a quiet edge takes one cycle off the latency, if one is left. -/
theorem Completing.quietEdge_pred : Completing (n - 1) before after (quietEdge s) := by
  cases n with
  | zero =>
    rw [quietEdge_ready h.phase]
    exact h
  | succ n => exact h.after_quietEdge

/-- R254, R256: `j` cycles of an idle host take `j` cycles off the latency, and a completed command stays complete. -/
theorem Completing.after_idle_cycles (hhost : s.host = []) (j : Nat) :
    ∃ t, runSteps j s = .next t ∧ Completing (n - j) before after t ∧ t.host = [] := by
  induction j generalizing s n with
  | zero => exact ⟨s, runSteps_zero s, h, hhost⟩
  | succ j ih =>
    obtain ⟨t, hrun, ht, hnil⟩ := ih h.quietEdge_pred ((quietEdge_host s).trans hhost)
    refine ⟨t, (runSteps_succ_of_step j (step_of_host_nil hhost)).trans hrun, ?_, hnil⟩
    rwa [Nat.sub_sub, Nat.add_comm] at ht

/-- R256: `cmd_ready` is 1 when no cycle of the latency is left. -/
theorem Completing.cmdReady : (ports s).cmdReady = decide (n = 0) := by
  cases n with
  | zero => rw [h.ports_eq_readyPorts]; rfl
  | succ n => rw [h.ports_eq_busyPorts]; rfl

end Completing

/-- R254, R256: an accepted word has its whole latency to go, and the host its other moves to make. -/
theorem Presents.completing {s : State} {w : CmdWord} {rest : List HostMove} (h : Presents s w rest)
    (hrest : ∀ m ∈ rest, m ≠ .reset) :
    ∃ t, step s = .next t ∧ Completing (latencyOf s.lat s.engine w) (shown s.engine) (commandStep s.engine w) t ∧
      t.host = rest :=
  ⟨_, h.step_eq, ⟨rfl, rfl, hrest⟩, rfl⟩

/-- Settles O27: an idle host's cycles take the latency off one by one. -/
theorem completionAfterTheLatency : Obligations.CompletionAfterTheLatency := by
  intro s w hpresents j
  obtain ⟨u, hstep, hu, hidle⟩ := hpresents.completing (by simp)
  obtain ⟨t, hrun, ht, hnil⟩ := hu.after_idle_cycles hidle j
  refine ⟨t, (runSteps_succ_of_step j hstep).trans hrun, ?_, fun hle => ?_⟩
  · rw [ht.cmdReady]
    exact decide_eq_decide.mpr Nat.sub_eq_zero_iff_le
  · rw [Nat.sub_eq_zero_of_le hle] at ht
    exact ⟨ht.engine, ht.phase, hnil⟩

/-- R259: some number of steps ends the run, with the tuple `e`. -/
def EndsWith (s : State) (e : Engine) : Prop :=
  ∃ k t, runSteps k s = .next t ∧ runEnded t = true ∧ t.engine = e

theorem EndsWith.of_step {s t : State} {e : Engine} (hstep : step s = .next t) (h : EndsWith t e) : EndsWith s e := by
  obtain ⟨k, u, hrun, hended⟩ := h
  exact ⟨k + 1, u, (runSteps_succ_of_step k hstep).trans hrun, hended⟩

/-- R79, R259: with a command at any point of its latency and any moves to come but a reset, the run ends, with R182's
function folded over the words to come: every move is taken in the end, and the latency before it is finite. -/
theorem Completing.endsWith {s : State} {n : Nat} {before : Shown} {after : Engine} {moves : List HostMove}
    (h : Completing n before after s) (hhost : s.host = moves) :
    EndsWith s (runCommands after (commandWords moves)) := by
  induction moves generalizing s n before after with
  | nil =>
    obtain ⟨t, hrun, ht, hnil⟩ := h.after_idle_cycles hhost n
    rw [Nat.sub_self] at ht
    have hready : t.phase = .ready := ht.phase
    exact ⟨n, t, hrun, by simp [runEnded, hnil, hready], ht.engine⟩
  | cons m rest ih =>
    have hrest : ∀ m ∈ rest, m ≠ .reset := fun m hm => h.noReset m (by simp [hhost, hm])
    cases m with
    | reset => exact absurd rfl (h.noReset .reset (by simp [hhost]))
    | idle =>
      have hidle : Completing n before after { s with host := rest } := ⟨h.phase, h.engine, hrest⟩
      exact (ih hidle.quietEdge_pred (quietEdge_host _)).of_step (step_of_idle hhost)
    | command w =>
      induction n generalizing s with
      | zero =>
        obtain ⟨t, hstep, ht, htail⟩ := Presents.completing ⟨h.phase, hhost⟩ hrest
        rw [h.engine] at ht
        exact (ih ht htail).of_step hstep
      | succ n ihn =>
        exact (ihn h.after_quietEdge ((quietEdge_host s).trans hhost)).of_step (step_of_held h.phase hhost)

/-- Settles O30: a ready state has no latency left. -/
theorem programIsTheFold : Obligations.ProgramIsTheFold :=
  fun s hready hreset => Completing.endsWith (n := 0) (before := shown s.engine) ⟨hready, rfl, hreset⟩ rfl

end Sys2Proof.Machine
end

section
/-! UPDATE below the 64th byte, ABORT, and what INIT forgets (R140, R181, R183). -/

namespace Sys2Proof.Machine

section BelowBlock

variable (data : Byte) {e : Engine} (h : e.nbuf.toNat < 63)
include h

/-- R140: below the 64th byte NBUF counts the byte. -/
theorem absorbByte_nbuf_of_below : (absorbByte data e).nbuf.toNat = e.nbuf.toNat + 1 := by
  rw [absorbByte_below data (by omega)]
  exact Nat.mod_eq_of_lt (by omega)

/-- R140: nothing is compressed. -/
theorem absorbByte_acc_of_below : (absorbByte data e).acc = e.acc := by
  rw [absorbByte_below data (by omega)]

/-- R140: no block is counted. -/
theorem absorbByte_len_of_below : (absorbByte data e).len = e.len := by
  rw [absorbByte_below data (by omega)]

end BelowBlock

/-- Settles O9: UPDATE absorbs its byte, and the byte does not fill the block. -/
theorem updateAppendsOneByte : Obligations.UpdateAppendsOneByte := by
  intro s data hst hnbuf hwf
  have hbyte (k : Nat) : readByte (absorbByte data s.engine).buf k =
      if k = s.engine.nbuf.toNat then data else readByte s.engine.buf k := by
    rw [absorbByte_buf, readByte_writeAtNbuf data hwf]
  exact ⟨_, exec_update_absorb data hst, rfl, hbyte, absorbByte_nbuf_of_below data hnbuf,
    absorbByte_acc_of_below data hnbuf, absorbByte_len_of_below data hnbuf, (absorbByte_st ..).trans hst, absorbByte_fcode .., absorbByte_fcmd ..,
    absorbByte_wf data hwf⟩

/-- Settles O8: ABORT outside FAULT is the one operation on the tuple, which ends in IDLE and so shows no digest. -/
theorem abortReturnsToIdle : Obligations.AbortReturnsToIdle := by
  refine ⟨rfl, fun s hst => ⟨_, exec_abort_outside_fault hst, rfl, rfl, rfl, rfl, rfl, rfl, rfl, rfl, fun hready => ?_⟩⟩
  have hphase : (s.withEngine (abandonOperation s.engine)).phase ≠ .unreset := by simp [hready]
  exact (no_digest_of_not_done hphase (by simp)).1

/-- R183: from an INIT on, a program runs on the fresh tuple. -/
theorem runCommands_from_init (e : Engine) (before after : List CmdWord) :
    runCommands e (before ++ 0x1000 :: after) = runCommands freshOperation after := by
  rw [runCommands, List.foldl_append, List.foldl_cons, commandStep_init_word, runCommands]

/-- Settles O34: both programs run on the fresh tuple from their INIT on. -/
theorem nothingPersistsAcrossInit : Obligations.NothingPersistsAcrossInit := by
  intro e f before before' after
  rw [runCommands_from_init, runCommands_from_init]

end Sys2Proof.Machine
end

section
/-! Which latency a word has, by the tuple it finds (R256). -/

namespace Sys2Proof.Machine

section Latency

variable (lat : Latencies) {e : Engine} {w : CmdWord}

/-- R256: a word ignored in FAULT. -/
theorem latencyOf_ignored (hst : e.st = .fault) (hw : w ≠ 0x1000) : latencyOf lat e w = lat.tIgnored := by
  rw [latencyOf, if_pos hst, if_neg hw]

/-- R256: INIT, in every ST. -/
theorem latencyOf_init (e : Engine) : latencyOf lat e 0x1000 = lat.tInit := by
  by_cases hst : e.st = .fault
  · rw [latencyOf, if_pos hst, if_pos rfl]
  · rw [latencyOf, if_neg hst]
    rfl

/-- R256: ABORT outside FAULT. -/
theorem latencyOf_abort (hst : e.st ≠ .fault) : latencyOf lat e 0x4000 = lat.tAbort := by
  rw [latencyOf, if_neg hst]
  rfl

/-- R256: FINAL in ABSORB. -/
theorem latencyOf_final (hst : e.st = .absorb) : latencyOf lat e 0x3000 = lat.tFinal := by
  rw [latencyOf, if_neg (by simp [hst])]
  exact if_pos hst

/-- R256: UPDATE in ABSORB, by whether its byte fills the block. -/
theorem latencyOf_update (hst : e.st = .absorb) (data : Byte) :
    latencyOf lat e (encode (.update data)) = if e.nbuf.toNat = 63 then lat.tBlock else lat.tUpdate := by
  rw [latencyOf, if_neg (by simp [hst]), decode_encode]
  simp [hst]

/-- R256: a word that raises a fault. -/
theorem latencyOf_faulting (hst : e.st ≠ .fault) (hfaults : (commandStep e w).st = .fault) :
    latencyOf lat e w = lat.tFault := by
  rw [latencyOf, if_neg hst]
  cases hdecode : decode w with
  | illegal code => rfl
  | legal i =>
    cases i with
    | init => simp [commandStep_init hst hdecode] at hfaults
    | abort => simp [commandStep_abort hst hdecode] at hfaults
    | update data =>
      have habsorb : e.st ≠ .absorb := fun h => (commandStep_absorb_no_fault (.inl ⟨data, hdecode⟩) h).1 hfaults
      exact if_neg habsorb
    | final =>
      have habsorb : e.st ≠ .absorb := fun h => (commandStep_absorb_no_fault (.inr hdecode) h).1 hfaults
      exact if_neg habsorb

end Latency

/-- Settles O28: the latency of each kind of word. -/
theorem latencyByCommand : Obligations.LatencyByCommand := by
  intro lat e
  refine ⟨latencyOf_init lat e, fun hst w hw => latencyOf_ignored lat hst hw, latencyOf_abort lat,
    fun hst => ⟨latencyOf_final lat hst, fun data => ?_⟩, fun hst w hfaults => latencyOf_faulting lat hst hfaults⟩
  rw [← encode_update, latencyOf_update lat hst]

end Sys2Proof.Machine
end

section
/-! Messages cut into blocks: the bytes of a block, and what a buffer that holds one adds to the accumulator (R52,
R100, R162). -/

namespace Sys2Proof.Machine

/-- A list that reads like the buffer is what the buffer reads. -/
theorem readBytes_eq_of_getD {m : Memory} {n : Nat} {l : List Byte} (hlength : l.length = n)
    (h : ∀ k < n, readByte m k = l.getD k 0) : readBytes m 0 n = l := by
  apply List.ext_getElem
  · rw [readBytes_length, hlength]
  · intro k _ hk
    rw [hlength] at hk
    simp [readBytes, h k hk, hlength, hk]

section Blocks

variable {bytes : List Byte} {i : Nat}

/-- Byte k of block i is byte 64 i + k. -/
theorem blockAt_getD {k : Nat} (hk : k < 64) : (blockAt bytes i).getD k 0 = bytes.getD (64 * i + k) 0 := by
  simp [blockAt, List.getD_eq_getElem?_getD, hk]

theorem blockAt_length (h : 64 * (i + 1) ≤ bytes.length) : (blockAt bytes i).length = 64 := by
  rw [blockAt, List.length_take, List.length_drop]
  omega

/-- Whole blocks do not see what is appended. -/
theorem blockAt_append (more : List Byte) (h : 64 * (i + 1) ≤ bytes.length) :
    blockAt (bytes ++ more) i = blockAt bytes i := by
  rw [blockAt, List.drop_append_of_le_length (by omega), List.take_append_of_le_length, blockAt]
  rw [List.length_drop]
  omega

theorem absorbBlocks_append (more : List Byte) (h : 64 * i ≤ bytes.length) :
    absorbBlocks (bytes ++ more) i = absorbBlocks bytes i := by
  induction i with
  | zero => rfl
  | succ i ih => rw [absorbBlocks, absorbBlocks, ih (by omega), blockAt_append more h]

/-- R100: compressing a buffer that holds block i absorbs that block. -/
theorem compress_absorbBlocks {m : Memory} (h : 64 * (i + 1) ≤ bytes.length)
    (hblock : ∀ k < 64, readByte m k = bytes.getD (64 * i + k) 0) :
    compress (absorbBlocks bytes i) m = absorbBlocks bytes (i + 1) := by
  have hread : readBytes m 0 64 = blockAt bytes i :=
    readBytes_eq_of_getD (blockAt_length h) fun k hk => by rw [hblock k hk, blockAt_getD hk]
  rw [compress_eq_compressWords, hread, absorbBlocks]

end Blocks

end Sys2Proof.Machine
end

section
/-! What an open operation has absorbed, from INIT on, and its length (R39, R140, R141, R161). -/

namespace Sys2Proof.Machine

/-- R180: a fresh operation has absorbed the empty message. -/
theorem absorbed_freshOperation : Absorbed [] freshOperation := ⟨rfl, rfl, rfl, rfl, rfl⟩

namespace Absorbed

variable {message : List Byte} {e : Engine} (h : Absorbed message e)
include h

/-- R39: the bytes below NBUF are the message's last ones. -/
theorem readByte_live {k : Nat} (hk : k < message.length % 64) :
    readByte e.buf k = message.getD (64 * (message.length / 64) + k) 0 := by
  have hbyte := congrArg (·.getD k 0) h.buf
  simpa [readBytes, List.getD_eq_getElem?_getD, hk] using hbyte

section Update

variable (data : Byte)

/-- R140: the byte that UPDATE writes follows the ones below NBUF. -/
theorem readByte_absorbByte (hwf : e.buf.wf = true) {k : Nat} (hk : k < message.length % 64 + 1) :
    readByte (absorbByte data e).buf k = (message ++ [data]).getD (64 * (message.length / 64) + k) 0 := by
  rw [absorbByte_buf, readByte_writeAtNbuf data hwf, h.nbuf]
  by_cases hlast : k = message.length % 64
  · rw [if_pos hlast, List.getD_append_right _ _ _ _ (by omega), hlast, Nat.div_add_mod, Nat.sub_self]
    rfl
  · rw [if_neg hlast, List.getD_append _ _ _ _ (by omega), h.readByte_live (by omega)]

/-- R140: below the 64th byte of a block the message grows in BUF. -/
theorem after_absorbByte_below (hwf : e.buf.wf = true) (hrem : message.length % 64 < 63) :
    Absorbed (message ++ [data]) (absorbByte data e) := by
  have hnbuf : e.nbuf.toNat < 63 := h.nbuf ▸ hrem
  have hlength : (message ++ [data]).length = message.length + 1 := by simp
  have hblocks : (message.length + 1) / 64 = message.length / 64 := by omega
  have hleft : (message.length + 1) % 64 = message.length % 64 + 1 := by omega
  refine ⟨(absorbByte_st ..).trans h.st, ?_, ?_, ?_, ?_⟩ <;> rw [hlength]
  · rw [hblocks, absorbBlocks_append _ (by omega), absorbByte_acc_of_below data hnbuf, h.acc]
  · rw [hblocks, absorbByte_len_of_below data hnbuf, h.len]
  · rw [hleft, absorbByte_nbuf_of_below data hnbuf, h.nbuf]
  · rw [hleft, hblocks]
    refine readBytes_eq_of_getD ?_ fun k hk => ?_
    · rw [List.length_drop, hlength]
      omega
    · rw [h.readByte_absorbByte data hwf hk]
      simp [List.getD_eq_getElem?_getD]

/-- R141: the 64th byte of a block moves the block into ACC and LEN. -/
theorem after_absorbByte_fills (hwf : e.buf.wf = true) (hrem : message.length % 64 = 63) :
    Absorbed (message ++ [data]) (absorbByte data e) := by
  have hfills : e.nbuf.toNat + 1 = 64 := by rw [h.nbuf, hrem]
  have hlength : (message ++ [data]).length = message.length + 1 := by simp
  have hblocks : (message.length + 1) / 64 = message.length / 64 + 1 := by omega
  have hleft : (message.length + 1) % 64 = 0 := by omega
  refine ⟨(absorbByte_st ..).trans h.st, ?_, ?_, ?_, ?_⟩ <;> rw [hlength]
  · rw [hblocks, absorbByte_acc_of_fills data hfills, h.acc, ← absorbBlocks_append [data] (by omega)]
    refine compress_absorbBlocks ?_ fun k hk => h.readByte_absorbByte data hwf (by omega)
    rw [hlength]
    omega
  · apply BitVec.eq_of_toNat_eq
    rw [absorbByte_len_of_fills data hfills, h.len, BitVec.toNat_ofNat, BitVec.toNat_ofNat]
    omega
  · rw [hleft, absorbByte_nbuf_of_fills data hfills]
    rfl
  · rw [hleft, hblocks]
    exact (List.drop_eq_nil_of_le (by rw [hlength]; omega)).symm

/-- R140, R141: UPDATE appends its byte to the message. -/
theorem after_absorbByte (hwf : e.buf.wf = true) : Absorbed (message ++ [data]) (absorbByte data e) := by
  by_cases hrem : message.length % 64 < 63
  · exact h.after_absorbByte_below data hwf hrem
  · exact h.after_absorbByte_fills data hwf (by omega)

theorem after_update (hwf : e.buf.wf = true) :
    Absorbed (message ++ [data]) (commandStep e (encode (.update data))) := by
  rw [commandStep_update (by simp [h.st]) (decode_encode _), if_pos h.st]
  exact h.after_absorbByte data hwf

end Update

/-- R161: L is the message length modulo 2^64. -/
theorem messageLength_eq : messageLength e = BitVec.ofNat 64 message.length := by
  apply BitVec.eq_of_toNat_eq
  rw [messageLength, BitVec.toNat_add, h.len, BitVec.toNat_setWidth, h.nbuf, BitVec.toNat_ofNat, BitVec.toNat_ofNat]
  omega

/-- R161: bitlen is eight times the message length modulo 2^64. -/
theorem bitLength_eq : bitLength e = BitVec.ofNat 64 (8 * message.length) := by
  rw [bitLength, h.messageLength_eq, Nat.mul_comm, BitVec.ofNat_mul]
  rfl

end Absorbed

/-- Settles O31: INIT gives the fresh tuple, and UPDATE in ABSORB absorbs its byte. -/
theorem updatesAbsorbTheMessage : Obligations.UpdatesAbsorbTheMessage := by
  refine ⟨fun e => ?_, fun message data e h hwf => ⟨h.after_update data hwf, commandStep_wf _ hwf⟩⟩
  rw [commandStep_init_word]
  exact ⟨absorbed_freshOperation, rfl⟩

/-- Settles O39: below 2^61 bytes neither length wraps. -/
theorem bitLengthIsExact : Obligations.BitLengthIsExact := by
  intro message e h hlt
  rw [h.messageLength_eq, h.bitLength_eq, BitVec.toNat_ofNat, BitVec.toNat_ofNat]
  exact ⟨Nat.mod_eq_of_lt (by omega), Nat.mod_eq_of_lt (by omega)⟩

end Sys2Proof.Machine
end

section
/-! The digest of a whole message: FINAL compresses the blocks of the padded message (R160 to R168). -/

namespace Sys2Proof.Machine

section Padding

variable (message : List Byte)

/-- R162: the padded message begins with the message. -/
theorem paddedMessage_eq_append : paddedMessage message =
    message ++ ([0x80] ++ List.replicate (zeroCount message.length) 0x00 ++ lengthField message.length) := by
  simp only [paddedMessage, List.append_assoc]

/-- R162: zeros up to 56 modulo 64: in the message's last block if 0x80 still leaves room there, else in the next. -/
theorem length_add_zeroCount (length : Nat) :
    length + 1 + zeroCount length = 64 * (length / 64) + if length % 64 < 56 then 56 else 120 := by
  rw [zeroCount]
  split <;> omega

theorem paddedMessage_length : (paddedMessage message).length = message.length + 1 + zeroCount message.length + 8 := by
  simp only [paddedMessage, lengthField, List.length_append, List.length_singleton, List.length_replicate,
    bytesOf_length]

/-- R161, R162: the message, 0x80, zeros and the length field, byte by byte. -/
theorem paddedMessage_getD {i : Nat} (hi : i < (paddedMessage message).length) : (paddedMessage message).getD i 0 =
    if i < message.length then message.getD i 0
    else if i = message.length then 0x80
    else if i < message.length + 1 + zeroCount message.length then 0x00
    else (BitVec.ofNat 64 (8 * message.length)).extractLsb'
      (8 * (i - (message.length + 1 + zeroCount message.length))) 8 := by
  have hprefix : (message ++ [0x80] ++ List.replicate (zeroCount message.length) 0x00).length =
      message.length + 1 + zeroCount message.length := by
    simp only [List.length_append, List.length_singleton, List.length_replicate]
  rw [paddedMessage_length] at hi
  rw [paddedMessage]
  by_cases hzeros : i < message.length + 1 + zeroCount message.length
  · rw [List.getD_append _ _ _ _ (by rwa [hprefix]), if_pos hzeros]
    by_cases hmark : i < message.length + 1
    · rw [List.getD_append _ _ _ _ (by simpa using hmark)]
      by_cases hmessage : i < message.length
      · rw [List.getD_append _ _ _ _ hmessage, if_pos hmessage]
      · have hlast : i = message.length := by omega
        rw [if_neg hmessage, if_pos hlast, List.getD_append_right _ _ _ _ hlast.ge, hlast, Nat.sub_self]
        rfl
    · rw [if_neg (by omega), if_neg (by omega), List.getD_append_right _ _ _ _ (by simpa using hmark),
        List.getD_eq_getElem?_getD]
      exact List.getElem?_getD_replicate_default_eq _ _ _
  · rw [if_neg (by omega), if_neg (by omega), if_neg hzeros, List.getD_append_right _ _ _ _ (by omega), hprefix,
      lengthField, bytesOf_getD _ (by omega)]

end Padding

namespace Absorbed

variable {message : List Byte} {e : Engine} (h : Absorbed message e) (hwf : e.buf.wf = true)
include h

/-- R160: the blocks already compressed are the padded message's first ones. -/
theorem acc_eq_padded : e.acc = absorbBlocks (paddedMessage message) (message.length / 64) := by
  rw [h.acc, paddedMessage_eq_append, absorbBlocks_append _ (by omega)]

include hwf

/-- R162: with room for the length field, the one block of FINAL is the padded message's last. -/
theorem finishMessage_acc_single (hrem : message.length % 64 < 56) :
    (finishMessage e).acc = absorbBlocks (paddedMessage message) ((paddedMessage message).length / 64) := by
  have hnbuf : e.nbuf.toNat < 56 := h.nbuf ▸ hrem
  have hfield := length_add_zeroCount message.length
  rw [if_pos hrem] at hfield
  have hlength : (paddedMessage message).length = 64 * (message.length / 64 + 1) := by
    rw [paddedMessage_length, hfield]
    omega
  rw [finishMessage_acc_of_single hnbuf, h.acc_eq_padded, hlength, Nat.mul_div_cancel_left _ (by decide)]
  refine compress_absorbBlocks hlength.ge fun k hk => ?_
  rw [readByte_finishMessage_single hnbuf hwf hk, paddedMessage_getD _ (by omega), hfield, h.bitLength_eq, h.nbuf]
  refine if_ctx_congr (by omega) (fun hlive => h.readByte_live (by omega)) fun _ => ?_
  refine if_congr (by omega) rfl (if_congr (by omega) rfl ?_)
  rw [Nat.add_sub_add_left]

/-- R163: without that room, the two blocks of FINAL are the padded message's last two. -/
theorem finishMessage_acc_double (hrem : ¬ message.length % 64 < 56) :
    (finishMessage e).acc = absorbBlocks (paddedMessage message) ((paddedMessage message).length / 64) := by
  have hnbuf : ¬ e.nbuf.toNat < 56 := h.nbuf ▸ hrem
  have hfield := length_add_zeroCount message.length
  rw [if_neg hrem] at hfield
  have hlength : (paddedMessage message).length = 64 * (message.length / 64 + 1 + 1) := by
    rw [paddedMessage_length, hfield]
    omega
  have hfirst : compress e.acc (padMark e) = absorbBlocks (paddedMessage message) (message.length / 64 + 1) := by
    rw [h.acc_eq_padded]
    refine compress_absorbBlocks (by omega) fun k hk => ?_
    rw [readByte_padMark hwf hk, paddedMessage_getD _ (by omega), hfield, h.nbuf]
    refine if_ctx_congr (by omega) (fun hlive => h.readByte_live (by omega)) fun _ => ?_
    exact if_congr (by omega) rfl (if_pos (by omega)).symm
  rw [finishMessage_acc_of_double hnbuf, hfirst, hlength, Nat.mul_div_cancel_left _ (by decide)]
  refine compress_absorbBlocks hlength.ge fun k hk => ?_
  rw [readByte_finishMessage_double hnbuf hwf hk, paddedMessage_getD _ (by omega), h.bitLength_eq]
  have hpast : message.length < 64 * (message.length / 64 + 1) + k := by omega
  rw [if_neg hpast.not_gt, if_neg hpast.ne']
  refine if_congr (by omega) rfl ?_
  rw [show 64 * (message.length / 64 + 1) + k - (message.length + 1 + zeroCount message.length) = k - 56 by omega]

/-- R165: FINAL leaves the digest of the padded message in ACC. -/
theorem digestBytes_finishMessage : digestBytes (finishMessage e).acc = md5 message := by
  rw [md5]
  by_cases hrem : message.length % 64 < 56
  · rw [h.finishMessage_acc_single hwf hrem]
  · rw [h.finishMessage_acc_double hwf hrem]

end Absorbed

/-- A fresh operation absorbs a message byte by byte. -/
theorem absorbed_updates (message : List Byte) :
    Absorbed message (runCommands freshOperation (message.map fun b => encode (.update b))) ∧
      (runCommands freshOperation (message.map fun b => encode (.update b))).Inv := by
  induction message using List.reverseRecOn with
  | nil => exact ⟨absorbed_freshOperation, .of_freshOperation⟩
  | append_singleton message data ih =>
    obtain ⟨habsorbed, hinv⟩ := ih
    rw [List.map_append, runCommands, List.foldl_append]
    exact ⟨habsorbed.after_update data hinv.bufWf, hinv.after_commandStep _⟩

/-- R168: the hash program ends in DONE with the message's digest in ACC and no fault recorded, from every tuple. -/
theorem runCommands_hashCommands (e : Engine) (message : List Byte) :
    (runCommands e (hashCommands message)).st = .done ∧ (runCommands e (hashCommands message)).fcode = 0 ∧
      digestBytes (runCommands e (hashCommands message)).acc = md5 message := by
  obtain ⟨habsorbed, hinv⟩ := absorbed_updates message
  have hfinal : runCommands e (hashCommands message) =
      finishMessage (runCommands freshOperation (message.map fun b => encode (.update b))) := by
    have hinit : encode .init = 0x1000 := rfl
    rw [hashCommands, hinit, runCommands, List.foldl_cons, commandStep_init_word, List.foldl_append, List.foldl_cons,
      List.foldl_nil, ← runCommands, commandStep_final (by simp [habsorbed.st]) (decode_encode _), if_pos habsorbed.st]
  obtain ⟨hfcode, -⟩ := hinv.no_record (by simp [habsorbed.st])
  rw [hfinal]
  exact ⟨finishMessage_st, finishMessage_fcode.trans hfcode, habsorbed.digestBytes_finishMessage hinv.bufWf⟩

/-- The words of a host that makes command moves alone. -/
theorem commandWords_map_command (ws : List CmdWord) : commandWords (ws.map .command) = ws := by
  induction ws with
  | nil => rfl
  | cons w ws ih => exact congrArg (w :: ·) ih

/-- R259: a run that has ended shows its tuple. -/
theorem ports_of_runEnded {s : State} (h : runEnded s = true) : ports s = readyPorts s.engine := by
  simp only [runEnded, Bool.and_eq_true, decide_eq_true_eq] at h
  exact ports_ready (rstHigh_nil h.1) h.2

/-- Settles O32: the run ends with the fold of the program, whose tuple shows the message's digest. -/
theorem hashProgramPublishesMd5 : Obligations.HashProgramPublishesMd5 := by
  intro s message hready hhost
  obtain ⟨k, t, hrun, hended, hengine⟩ := programIsTheFold s hready (by simp [hhost])
  rw [hhost, commandWords_map_command] at hengine
  obtain ⟨hst, hfcode, hdigest⟩ := runCommands_hashCommands s.engine message
  rw [← hengine] at hst hfcode hdigest
  refine ⟨k, t, hrun, hended, ?_, hfcode, fun n hn => ?_⟩
  · rw [digestValid, ports_of_runEnded hended, readyPorts]
    simpa only [hst, decide_true] using statusWord_valid ..
  · rw [ports_of_runEnded hended, readyPorts_digest_of_done hst, ← hdigest]
    refine (digestWord_byte t.engine.acc ⟨n, hn⟩).trans ?_
    simp [digestBytes, List.getD_eq_getElem?_getD, hn]

end Sys2Proof.Machine
end

section
/-! The legal words: the opcode table's rows, and the 259 words that fit them (R73, R75). -/

namespace Sys2Proof

/-- R75: a word is legal when it is some command's. -/
theorem legal_iff_encoded (w : CmdWord) : (∃ i, decode w = .legal i) ↔ ∃ i, encode i = w :=
  exists_congr fun _ => decode_eq_legal_iff

theorem opcodeRow_mem (i : Instr) : opcodeRow i ∈ opcodeTable := by
  cases i <;> simp [opcodeRow, opcodeTable]

/-- R73: UPDATE's row fixes OP and RSV and leaves DATA open. -/
theorem fits_update_row_iff (w : CmdWord) :
    (⟨0x2000, 0xFF00⟩ : OpcodeRow).fits w = true ↔ ∃ data, encode (.update data) = w := by
  rw [OpcodeRow.fits, beq_iff_eq]
  constructor
  · intro hfixed
    have hdata : w &&& 0x00FF = (dataField w).setWidth 16 := by
      apply BitVec.eq_of_toNat_eq
      rw [BitVec.toNat_and, BitVec.toNat_setWidth, dataField_toNat]
      exact (Nat.and_two_pow_sub_one_eq_mod w.toNat 8).trans (by omega)
    refine ⟨dataField w, ?_⟩
    calc encode (.update (dataField w))
        = (w &&& 0xFF00) ||| (w &&& 0x00FF) := by rw [Machine.encode_update, hfixed, hdata]
      _ = w &&& BitVec.allOnes 16 := (BitVec.and_or_distrib_left).symm
      _ = w := BitVec.and_allOnes
  · rintro ⟨data, rfl⟩
    have hopen : data.setWidth 16 &&& 0xFF00 = 0 := by
      revert data
      decide +kernel
    rw [Machine.encode_update, BitVec.and_or_distrib_right, hopen]
    rfl

/-- R73: a row with a full mask fits one word. -/
theorem fits_full_row_iff (m w : CmdWord) : (⟨m, 0xFFFF⟩ : OpcodeRow).fits w = true ↔ m = w := by
  rw [OpcodeRow.fits, beq_iff_eq, show (0xFFFF : CmdWord) = BitVec.allOnes 16 from rfl, BitVec.and_allOnes]
  exact eq_comm

/-- R73: a command's word fits its row. -/
theorem opcodeRow_fits_encode (i : Instr) : (opcodeRow i).fits (encode i) = true := by
  cases i with
  | init => exact (fits_full_row_iff _ _).mpr rfl
  | update data => exact (fits_update_row_iff _).mpr ⟨data, rfl⟩
  | final => exact (fits_full_row_iff _ _).mpr rfl
  | abort => exact (fits_full_row_iff _ _).mpr rfl

/-- R73: what fits a row is the word of a command of that row. -/
theorem encoded_of_fits {r : OpcodeRow} {w : CmdWord} (hr : r ∈ opcodeTable) (hfits : r.fits w = true) :
    ∃ i, opcodeRow i = r ∧ encode i = w := by
  simp only [opcodeTable, List.mem_cons, List.not_mem_nil, or_false] at hr
  obtain rfl | rfl | rfl | rfl := hr
  · exact ⟨.init, rfl, (fits_full_row_iff _ _).mp hfits⟩
  · obtain ⟨data, hword⟩ := (fits_update_row_iff w).mp hfits
    exact ⟨.update data, rfl, hword⟩
  · exact ⟨.final, rfl, (fits_full_row_iff _ _).mp hfits⟩
  · exact ⟨.abort, rfl, (fits_full_row_iff _ _).mp hfits⟩

/-- Settles O21: the words that fit a row are the words of its commands, and a word has one command. -/
theorem legalWordsFitOneTableRow : Obligations.LegalWordsFitOneTableRow := by
  refine ⟨fun w => ?_, fun w i hdecode => ?_, fun w r hr r' hr' hfits hfits' => ?_⟩
  · rw [legal_iff_encoded]
    constructor
    · rintro ⟨i, rfl⟩
      exact ⟨opcodeRow i, opcodeRow_mem i, opcodeRow_fits_encode i⟩
    · rintro ⟨r, hr, hfits⟩
      obtain ⟨i, -, hword⟩ := encoded_of_fits hr hfits
      exact ⟨i, hword⟩
  · rw [← encode_of_decode hdecode]
    exact ⟨opcodeRow_fits_encode i, opcodeRow_mem i⟩
  · obtain ⟨i, rfl, hword⟩ := encoded_of_fits hr hfits
    obtain ⟨j, rfl, hword'⟩ := encoded_of_fits hr' hfits'
    rw [encode_injective (hword.trans hword'.symm)]

/-- The commands, UPDATE with each byte. -/
def allCommands : List Instr := .init :: .final :: .abort :: (List.finRange 256).map fun k => .update (BitVec.ofFin k)

theorem mem_allCommands (i : Instr) : i ∈ allCommands := by
  cases i with
  | update data => simp [allCommands]
  | init | final | abort => simp [allCommands]

theorem allCommands_nodup : allCommands.Nodup := by
  have hupdate : Function.Injective fun k : Fin 256 => Instr.update (BitVec.ofFin k) := by
    intro j k h
    simpa using h
  simpa [allCommands] using (List.nodup_finRange 256).map hupdate

theorem allCommands_length : allCommands.length = 259 := by simp [allCommands]

/-- R70: the word of UPDATE as a number. -/
theorem encode_update_toNat (data : Byte) : (encode (.update data)).toNat = 0x2000 + data.toNat :=
  commandWord_toNat 2 data

/-- R75: the words of the commands by their numbers. -/
theorem encoded_iff (w : CmdWord) : (∃ i, encode i = w) ↔
    w = 0x1000 ∨ (0x2000 ≤ w.toNat ∧ w.toNat ≤ 0x20FF) ∨ w = 0x3000 ∨ w = 0x4000 := by
  constructor
  · rintro ⟨i, rfl⟩
    cases i with
    | init => exact .inl rfl
    | final => exact .inr (.inr (.inl rfl))
    | abort => exact .inr (.inr (.inr rfl))
    | update data =>
      have hdata := data.isLt
      rw [encode_update_toNat]
      exact .inr (.inl ⟨by omega, by omega⟩)
  · rintro (rfl | ⟨hlow, hhigh⟩ | rfl | rfl)
    · exact ⟨.init, rfl⟩
    · refine ⟨.update (dataField w), BitVec.eq_of_toNat_eq ?_⟩
      rw [encode_update_toNat, dataField_toNat]
      omega
    · exact ⟨.final, rfl⟩
    · exact ⟨.abort, rfl⟩

/-- Settles O22: the legal words are the words of the commands, and different commands have different words. -/
theorem legalWordsAre259 : Obligations.LegalWordsAre259 := by
  refine ⟨fun w => (legal_iff_encoded w).trans (encoded_iff w), allCommands.map encode,
    allCommands_nodup.map encode_injective, (List.length_map _).trans allCommands_length, fun w => ?_⟩
  rw [legal_iff_encoded, List.mem_map]
  exact exists_congr fun i => and_iff_right (mem_allCommands i)

/-- Settles O23: nine words, decoded. -/
theorem specWordsDecode : Obligations.SpecWordsDecode := by
  unfold Obligations.SpecWordsDecode
  decide +kernel

end Sys2Proof
end

section
/-! The compression function's parts: rotl bit by bit, the round tables, the worked round, and the round-serial
sequencer (R8, R36, R109 to R114). -/

namespace Sys2Proof.Machine

/-- R8: for amounts below 32, rotl is the rotation of a 32-bit vector. -/
theorem rotl_eq_rotateLeft (x : Word) {n : Nat} (hn : n < 32) : rotl x n = x.rotateLeft n := by
  rw [rotl, BitVec.rotateLeft_def, Nat.mod_eq_of_lt hn]

/-- Settles O42: bit (k + n) mod 32 of a rotation lies below n when the sum wraps, and at n or above when it does
not. -/
theorem rotlMovesEveryBit : Obligations.RotlMovesEveryBit := by
  intro x n k hlow hhigh hk
  rw [rotl_eq_rotateLeft x (by omega), BitVec.getLsbD_rotateLeft, Nat.mod_eq_of_lt (by omega : n < 32),
    Bool.cond_decide]
  by_cases hwrap : k + n < 32
  · rw [Nat.mod_eq_of_lt hwrap, if_neg (by omega), decide_eq_true hwrap, Bool.true_and, Nat.add_sub_cancel]
  · have hbit : (k + n) % 32 = k + n - 32 := by omega
    rw [hbit, if_pos (by omega)]
    congr 1
    omega

/-- R109: the amounts by stage and by round modulo 4. -/
theorem roundR_eq_listed (i : Fin 64) :
    roundR i = [7, 12, 17, 22, 5, 9, 14, 20, 4, 11, 16, 23, 6, 10, 15, 21].getD (4 * (i.val / 16) + i.val % 4) 0 ∧
      4 ≤ roundR i ∧ roundR i ≤ 23 := by
  revert i
  decide +kernel

/-- R110: in each stage each message word has one round. -/
theorem existsUnique_round (s : Fin 4) (j : Fin 16) : ∃ i : Fin 64, (stageOf i = s ∧ roundG i = j) ∧
    ∀ i' : Fin 64, stageOf i' = s → roundG i' = j → i' = i := by
  revert s j
  decide +kernel

/-- Settles O44: the tables are finite, and each entry is checked. -/
theorem roundTablesAsListed : Obligations.RoundTablesAsListed :=
  ⟨roundR_eq_listed, by decide +kernel, existsUnique_round⟩

/-- Settles O45: the worked values, computed. -/
theorem workedRoundAndCompression : Obligations.WorkedRoundAndCompression :=
  ⟨by decide +kernel, by decide +kernel, by decide +kernel⟩

section Sequencer

variable (x : Fin 16 → Word) (acc : Acc)

/-- A run ends with its last cycle. -/
theorem seqRun_succ (n : Nat) (q : Sequencer) : seqRun x (n + 1) q = seqStep x (seqRun x n q) := by
  induction n generalizing q with
  | zero => rfl
  | succ n ih => rw [seqRun, ih, ← seqRun]

/-- R113: the first `n` rounds, in increasing order. -/
def firstRounds (n : Nat) : Acc := ((List.finRange 64).take n).foldl (fun r i => roundStep i r x) acc

theorem firstRounds_succ {n : Nat} (hn : n < 64) :
    firstRounds x acc (n + 1) = roundStep ⟨n, hn⟩ (firstRounds x acc n) x := by
  rw [firstRounds, List.take_succ_eq_append_getElem (by simpa using hn), List.foldl_append, ← firstRounds]
  simp

/-- R113: all 64 of them. -/
theorem firstRounds_all : firstRounds x acc 64 = allRounds x acc := by
  rw [firstRounds, List.take_of_length_le (by simp), allRounds]

/-- R114: after the load, each cycle does one round, and ACC keeps its old value. -/
theorem seqRun_rounds {n : Nat} (hn : n < 64) :
    seqRun x (n + 1) { acc := acc, seq := .compIdle } =
      { acc := acc, seq := .compRound ⟨n, hn⟩ (firstRounds x acc n) } := by
  induction n with
  | zero => rfl
  | succ n ih =>
    rw [seqRun_succ, ih (by omega), seqStep, firstRounds_succ x acc (by omega)]
    exact dif_pos hn

/-- R114: the last round is followed by the feed-forward cycle. -/
theorem seqRun_last_round :
    seqRun x 65 { acc := acc, seq := .compIdle } = { acc := acc, seq := .compAdd (allRounds x acc) } := by
  rw [seqRun_succ, seqRun_rounds x acc (by decide : 63 < 64), seqStep, ← firstRounds_all,
    firstRounds_succ x acc (by decide)]
  exact dif_neg (by decide)

end Sequencer

/-- Settles O46: load, 64 rounds, and the feed-forward in the last cycle. -/
theorem sequencerComputesCompress : Obligations.SequencerComputesCompress := by
  refine fun x acc => ⟨?_, fun n hn => ?_⟩
  · rw [seqRun_succ, seqRun_last_round]
    rfl
  · obtain rfl | ⟨m, hm, rfl⟩ | rfl : n = 0 ∨ (∃ m < 64, n = m + 1) ∨ n = 65 := by
      obtain _ | m := n
      · exact .inl rfl
      · by_cases hm : m < 64
        · exact .inr (.inl ⟨m, hm, rfl⟩)
        · exact .inr (.inr (by omega))
    · rfl
    · rw [seqRun_rounds x acc hm]
    · rw [seqRun_last_round]

end Sys2Proof.Machine
end

section
/-! MemRead after MemWrite (R9). -/

namespace Sys2Proof.Machine

/-- A value of n bytes is its bytes; `word_eq_of_bytes` is the case of four. -/
theorem bits_eq_of_bytes {n : Nat} {v w : BitVec (8 * n)}
    (h : ∀ t < n, v.extractLsb' (8 * t) 8 = w.extractLsb' (8 * t) 8) : v = w := by
  apply BitVec.eq_of_getLsbD_eq
  intro i hi
  have hbit := congrArg (BitVec.getLsbD · (i % 8)) (h (i / 8) (by omega))
  simpa [BitVec.getLsbD_extractLsb', Nat.mod_lt, Nat.div_add_mod] using hbit

/-- Settles O48: MemRead takes the bytes that MemWrite left, one by one. -/
theorem memReadAfterMemWrite : Obligations.MemReadAfterMemWrite := by
  intro m k n v h hwf
  have hwritten (t : Nat) (ht : t < n) : readByte (memWrite m k n v h) (k + t) = v.extractLsb' (8 * t) 8 := by
    rw [readByte_memWrite v h hwf, if_pos ⟨by omega, by omega⟩, Nat.add_sub_cancel_left]
  refine ⟨bits_eq_of_bytes fun t ht => ?_, hwritten, fun j hj => ?_, memWrite_wf v h hwf⟩
  · rw [memRead_byte _ h ht, hwritten t ht]
  · rw [readByte_memWrite v h hwf, if_neg (by omega)]

end Sys2Proof.Machine
end

section
/-! The host's side: hex rendering and the assembler (R77, R78, R167). -/

namespace Sys2Proof.Machine

/-- R167: the character of v is the alphabet's at index v. -/
theorem hexDigit_eq_getElem? (v : Fin 16) : some (hexDigit v) = hexAlphabet[v.val]? :=
  (List.getElem?_eq_getElem _).symm

/-- R167: the high nibble's character, then the low one's. -/
theorem hexByte_getElem? (b : Byte) :
    (hexByte b)[0]? = hexAlphabet[b.toNat / 16]? ∧ (hexByte b)[1]? = hexAlphabet[b.toNat % 16]? := by
  have hb := b.isLt
  have hhigh : (b.extractLsb' 4 4).toNat = b.toNat / 16 := by
    rw [BitVec.extractLsb'_toNat, Nat.shiftRight_eq_div_pow]
    omega
  have hlow : (b.extractLsb' 0 4).toNat = b.toNat % 16 := BitVec.extractLsb'_toNat ..
  rw [← hhigh, ← hlow]
  exact ⟨hexDigit_eq_getElem? _, hexDigit_eq_getElem? _⟩

@[simp] theorem hexByte_length (b : Byte) : (hexByte b).length = 2 := rfl

@[simp] theorem hexRender_length (digest : List Byte) : (hexRender digest).length = 2 * digest.length := by
  induction digest with
  | nil => rfl
  | cons b digest ih =>
    rw [hexRender, List.flatMap_cons, List.length_append, ← hexRender, ih, hexByte_length, List.length_cons]
    omega

/-- R167: byte k has the characters 2k and 2k + 1. -/
theorem hexRender_getElem? (digest : List Byte) {k t : Nat} (hk : k < digest.length) (ht : t < 2) :
    (hexRender digest)[2 * k + t]? = (hexByte (digest.getD k 0))[t]? := by
  induction digest generalizing k with
  | nil => exact absurd hk (Nat.not_lt_zero k)
  | cons b digest ih =>
    rw [hexRender, List.flatMap_cons, ← hexRender]
    cases k with
    | zero => rw [Nat.mul_zero, Nat.zero_add, List.getElem?_append_left (by rwa [hexByte_length]), List.getD_cons_zero]
    | succ k =>
      have hindex : 2 * (k + 1) + t - 2 = 2 * k + t := by omega
      rw [List.getElem?_append_right (by rw [hexByte_length]; omega), List.getD_cons_succ, hexByte_length, hindex,
        ih (Nat.lt_of_succ_lt_succ hk)]

/-- Settles O49: byte by byte; the example is computed. -/
theorem hexRenderingOfADigest : Obligations.HexRenderingOfADigest := by
  refine ⟨fun digest => ⟨hexRender_length digest, fun k hk => ?_⟩, by decide +kernel, by decide +kernel⟩
  obtain ⟨hhigh, hlow⟩ := hexByte_getElem? (digest.getD k 0)
  exact ⟨(hexRender_getElem? digest hk (by decide : 0 < 2)).trans hhigh,
    (hexRender_getElem? digest hk (by decide : 1 < 2)).trans hlow⟩

/-- R78: the words of a text are those of UPDATE. -/
theorem legal_of_mem_updateStrWords {s : List Char} {w : CmdWord} (h : w ∈ updateStrWords s) :
    ∃ i, decode w = .legal i := by
  obtain ⟨c, -, rfl⟩ := List.mem_map.mp h
  exact ⟨_, decode_encode _⟩

/-- R77, R78: but for `.WORD`, a line stands for words of commands. -/
theorem legal_of_mem_words {l : AsmLine} (hl : ∀ w, l ≠ .word w) {w : CmdWord} (h : w ∈ l.words) :
    ∃ i, decode w = .legal i := by
  cases l with
  | blank => cases h
  | init | final | abort | update =>
    rw [List.mem_singleton.mp h]
    exact ⟨_, decode_encode _⟩
  | word v => exact absurd rfl (hl v)
  | updateStr s => exact legal_of_mem_updateStrWords h
  | updateBytes bytes =>
    obtain ⟨b, -, rfl⟩ := List.mem_map.mp h
    exact ⟨_, decode_encode _⟩
  | updateRep byte n =>
    rw [List.eq_of_mem_replicate h]
    exact ⟨_, decode_encode _⟩
  | hash s =>
    obtain rfl | htail := List.mem_cons.mp h
    · exact ⟨_, decode_encode _⟩
    · obtain htext | hfinal := List.mem_append.mp htail
      · exact legal_of_mem_updateStrWords htext
      · rw [List.mem_singleton.mp hfinal]
        exact ⟨_, decode_encode _⟩

/-- Settles O50: line by line; HASH is its three parts by definition. -/
theorem onlyDotWordWritesIllegalWords : Obligations.OnlyDotWordWritesIllegalWords := by
  refine ⟨fun l hl w => legal_of_mem_words hl, fun w => ⟨decide_eq_true w.isLt, ?_⟩, fun s => ?_, fun s => rfl⟩
  · rw [AsmLine.words, BitVec.ofNat_toNat, BitVec.setWidth_eq]
  · rw [AsmLine.words, updateStrWords, hashCommands, List.map_map]
    rfl

/-- Settles O51: six lines, assembled. -/
theorem workedAssembly : Obligations.WorkedAssembly := by
  unfold Obligations.WorkedAssembly
  decide +kernel

end Sys2Proof.Machine
end
